-- ==== Sys2Proof/Word.lean ====
section
/-! DEFINITION. The unsigned words of the datapath (R7, R17 of 00_scope.md). -/

namespace Sys2Proof

/-- `u8` (R17): one byte. -/
abbrev U8 := BitVec 8

/-- `u32` (R17): the native width of XXH32 (R7). -/
abbrev U32 := BitVec 32

/-- `u64` (R17): the native width of XXH64 (R7). -/
abbrev U64 := BitVec 64

end Sys2Proof
end

