-- ==== Sys2Proof/Config.lean ====
section
/-! DEFINITION. What is fixed for the block: the implementation parameters of 00_scope.md section 4 and the one open
parameter of 92_eei_decisions.md (D26). R30 (10_state.md): these are configuration, not state. -/

namespace Sys2Proof.Config

/-- CHUNK32 (R8): bytes in one XXH32 processing chunk. -/
def chunk32 : Nat := 16

/-- CHUNK64 (R8): bytes in one XXH64 processing chunk. -/
def chunk64 : Nat := 32

/-- LANE32 (R8): bytes in one XXH32 lane. -/
def lane32Bytes : Nat := 4

/-- LANE64 (R8): bytes in one XXH64 lane. -/
def lane64Bytes : Nat := 8

/-- R32 (R9): the rotation of the 32-bit round. -/
def round32Rot : Nat := 13

/-- R64 (R9): the rotation of the 64-bit round. -/
def round64Rot : Nat := 31

/-- The converge rotation of v1 (R9). -/
def converge1 : Nat := 1

/-- The converge rotation of v2 (R9). -/
def converge2 : Nat := 7

/-- The converge rotation of v3 (R9). -/
def converge3 : Nat := 12

/-- The converge rotation of v4 (R9). -/
def converge4 : Nat := 18

/-- BUF_CAP (R10): bytes in the bounded chunk buffer. -/
def bufCap : Nat := 32

/-- TOTAL_BITS = 64 (R11): the largest value of the stream's length counter S_TOTAL. -/
def maxTotal : Nat := 2 ^ 64 - 1

/-- LEN_BITS = 64 (R12): the largest number of bytes a DATA operand holds. -/
def maxData : Nat := 2 ^ 64 - 1

/-- The default seed (R14). -/
def defaultSeed : Nat := 0

/-- P32_1 (R15). The ten primes are PRESUMED by the spec itself: it marks them as general knowledge (log entry 15). -/
def p32_1 : U32 := 0x9E3779B1#32
/-- P32_2 (R15). -/
def p32_2 : U32 := 0x85EBCA77#32
/-- P32_3 (R15). -/
def p32_3 : U32 := 0xC2B2AE3D#32
/-- P32_4 (R15). -/
def p32_4 : U32 := 0x27D4EB2F#32
/-- P32_5 (R15). -/
def p32_5 : U32 := 0x165667B1#32
/-- P64_1 (R15). -/
def p64_1 : U64 := 0x9E3779B185EBCA87#64
/-- P64_2 (R15). -/
def p64_2 : U64 := 0xC2B2AE3D27D4EB4F#64
/-- P64_3 (R15). -/
def p64_3 : U64 := 0x165667B19E3779F9#64
/-- P64_4 (R15). -/
def p64_4 : U64 := 0x85EBCA77C2B2AE63#64
/-- P64_5 (R15). -/
def p64_5 : U64 := 0x27D4EB2F165667C5#64

/-- RESULT_BYTE_LAYOUT (R65 of 20_memory.md, D26, OPEN): the order in which a platform with a byte-wide bus shows the
bytes of RESULT. It is an argument of the byte-wise read and no rule of the block depends on it (log entry 9). -/
inductive ByteLayout where
  | little
  | big
deriving DecidableEq, Repr

end Sys2Proof.Config
end

