-- ==== Sys2Proof/Syntax.lean ====
section
/-! DEFINITION. The command transaction of the port and the five commands (30_encoding.md). -/

namespace Sys2Proof

/-- One command transaction (R90): the command word, the seed operand and the input bytes. -/
structure Transaction where
  /-- CMD, 8 bits (R91). -/
  cmd : U8
  /-- SEED, 64 bits (R92). -/
  seed : U64
  /-- DATA, a byte sequence passed by value (R93, R60). -/
  data : List U8
deriving DecidableEq, Repr

/-- The commands of the opcode map (R94), one constructor per row of opcode_table.json. Each carries both operands of its
transaction (R90), also the ones its meaning ignores (R92, R93, D27), so that decoding loses nothing (log entry 17). -/
inductive Instr where
  /-- HASH32 (R160). -/
  | hash32 (seed : U64) (data : List U8)
  /-- HASH64 (R190). -/
  | hash64 (seed : U64) (data : List U8)
  /-- S64_INIT (R228). -/
  | s64Init (seed : U64) (data : List U8)
  /-- S64_APPEND (R232). -/
  | s64Append (seed : U64) (data : List U8)
  /-- S64_FINAL (R236). -/
  | s64Final (seed : U64) (data : List U8)
deriving DecidableEq, Repr

/-- The SEED operand of a command. -/
def Instr.seed : Instr → U64
  | .hash32 seed _ => seed
  | .hash64 seed _ => seed
  | .s64Init seed _ => seed
  | .s64Append seed _ => seed
  | .s64Final seed _ => seed

/-- The DATA operand of a command. -/
def Instr.data : Instr → List U8
  | .hash32 _ data => data
  | .hash64 _ data => data
  | .s64Init _ data => data
  | .s64Append _ data => data
  | .s64Final _ data => data

end Sys2Proof
end

