-- ==== Sys2Proof/WellFormed.lean ====
section
/-! DEFINITION. Which transactions and commands the port can carry (R12 of 00_scope.md, R90 and R93 of 30_encoding.md). -/

namespace Sys2Proof

/-- The one bound on a transaction: DATA holds between 0 and 2^64 − 1 bytes (R12, R90). Every CMD word and every SEED is
a legal value of its field. -/
abbrev Transaction.WellFormed (t : Transaction) : Prop := t.data.length ≤ Config.maxData

/-- The same bound on a command (R93). -/
abbrev Instr.WellFormed (i : Instr) : Prop := i.data.length ≤ Config.maxData

end Sys2Proof
end

