-- ==== Sys2Proof/Decode.lean ====
section
/-! DEFINITION. Decoding a command transaction, total on all 256 command words (R95 of 30_encoding.md), and the encoder
written from the opcode map (R94). -/

namespace Sys2Proof

/-- Why a command word is ILLEGAL (R95, R96). -/
inductive DecodeError where
  /-- CMD[7:3] is not 0 (R91). -/
  | reservedBits
  /-- CMD[2:0] is 0b101, 0b110 or 0b111 (R94). -/
  | reservedOpcode
deriving DecidableEq, Repr

/-- RSV = CMD[7:3] (R91). -/
def rsvField (cmd : U8) : BitVec 5 := cmd.extractLsb' 3 5

/-- OP = CMD[2:0] (R91). -/
def opField (cmd : U8) : BitVec 3 := cmd.extractLsb' 0 3

/-- R95: reserved bits first, then the opcode. The operands ride along unread. -/
def decode (t : Transaction) : Except DecodeError Instr :=
  if rsvField t.cmd ≠ 0#5 then .error .reservedBits
  else match (opField t.cmd).toNat with
    | 0 => .ok (.hash32 t.seed t.data)
    | 1 => .ok (.hash64 t.seed t.data)
    | 2 => .ok (.s64Init t.seed t.data)
    | 3 => .ok (.s64Append t.seed t.data)
    | 4 => .ok (.s64Final t.seed t.data)
    | _ => .error .reservedOpcode

/-- The CMD value of a command (R94: each matches exactly one value, mask 0xFF). -/
def commandWord : Instr → U8
  | .hash32 _ _ => 0x00#8
  | .hash64 _ _ => 0x01#8
  | .s64Init _ _ => 0x02#8
  | .s64Append _ _ => 0x03#8
  | .s64Final _ _ => 0x04#8

/-- The transaction that issues a command (R90, R94). -/
def encode (i : Instr) : Transaction := { cmd := commandWord i, seed := i.seed, data := i.data }

/-- The transaction behind a word of the opcode table: the row's bits are CMD, the operands are zeros, that is SEED = 0
and no DATA (log entry 2). -/
def tableTransaction (nbits w : Nat) : Transaction :=
  { cmd := BitVec.ofNat 8 (w % 2 ^ nbits), seed := 0#64, data := [] }

/-- The instruction the decoder reads from a word of the opcode table. -/
def decodeTableWord (nbits w : Nat) : Option Instr :=
  match decode (tableTransaction nbits w) with
  | .ok i => some i
  | .error _ => none

end Sys2Proof
end

