-- ==== Sys2Proof/Machine/State.lean ====
section
/-! DEFINITION. The state of the block (10_state.md), the reasons a step can stop, and the state after reset (R51). -/

namespace Sys2Proof.Machine

/-- An accumulator quadruple v1 to v4 of `w`-bit words (R21 of 00_scope.md). -/
structure Quad (w : Nat) where
  v1 : BitVec w
  v2 : BitVec w
  v3 : BitVec w
  v4 : BitVec w
deriving DecidableEq, Repr

/-- The registers of a one-shot engine (R46, R47), as they stand while its command runs. -/
structure Engine (w : Nat) where
  /-- E.p, the 64-bit offset into IN. It never passes |DATA| ≤ 2^64 − 1 (R32), so it is held as the exact count. -/
  p : Nat
  /-- E.h, the result accumulator. -/
  h : BitVec w
  /-- E.v1 to E.v4; the short entry path never writes them, and then they hold no value (R51). -/
  v : Option (Quad w)
deriving DecidableEq, Repr

/-- The completion codes (R35): the codes 4 to 7 are never produced, so they are no values of this type. -/
inductive Code where
  /-- 0, every successful command. -/
  | ok
  /-- 1, ERR_ILLEGAL. -/
  | errIllegal
  /-- 2, ERR_NO_STREAM. -/
  | errNoStream
  /-- 3, ERR_LENGTH. -/
  | errLength
deriving DecidableEq, Repr

/-- The bytes of S_BUF that hold a value, as (offset, byte) pairs with the offsets strictly rising (log entry 4). -/
abbrev Memory := List Host.Cell

/-- What an offset that is not listed reads as: no value (R42, R51: after reset every byte of S_BUF has no value). -/
def Memory.unlisted : Option U8 := none

/-- The canonical form of BUF: offsets strictly rising and below 32 (R61). An unlisted offset has no value, so no listed
byte can equal it. -/
abbrev Memory.wf (m : Memory) : Prop := m.Pairwise (fun c d => c.1 < d.1) ∧ ∀ c ∈ m, c.1 < Config.bufCap

/-- What the host can do at the block's interface, one at a time (R22, R90; log entries 1, 8, 9 and 10). -/
inductive HostAction where
  /-- Issue one command (R90). -/
  | command (t : Transaction)
  /-- Read STATUS (R34). -/
  | readStatus
  /-- Read RESULT as a number (R33). -/
  | readResult
  /-- Read RESULT over a byte-wide bus in the platform's layout (R65, D26). -/
  | readResultBytes (layout : Config.ByteLayout)
  /-- Assert reset (R290). -/
  | reset
deriving DecidableEq, Repr

/-- What a host read returned. -/
inductive HostRead where
  | status (v : U8)
  | result (v : U64)
  | resultBytes (bytes : List U8)
deriving DecidableEq, Repr

/-- The registers that can hold no value (R51). -/
inductive Register where
  | result
  | sSeed
  | sV
  | sBuf
  | sBufLen
  | sTotal
  | e32
  | e64
deriving DecidableEq, Repr

/-- The model faults of R276 (60_exceptions.md): stops the hardware does not have, all safe. -/
inductive Fault where
  /-- R276 (a), U3: a read of a register or S_BUF byte that holds no value. Raised by the host's read of RESULT before any
  hash-producing command succeeded, and by the operations that read a stream or engine register in a state no run
  reaches. Safe: the hardware's behaviour there is undefined. -/
  | noValue (r : Register)
  /-- R276 (b), R64, U1: a lane or byte read out of range. Raised by the lane reader; no command reaches it. Safe. -/
  | readOutOfRange
  /-- R276 (c), R222: a buffer write at an offset of 32 or more. Raised by the byte write; no command reaches it. Safe. -/
  | bufWriteOutOfRange
  /-- R276 (c), R43: S_BUFLEN over 32. Raised by reading S_BUFLEN; no command reaches it. Safe. -/
  | bufLenOutOfRange
  /-- U2, R225: consume called on a full buffer without a drain between. Raised by the loop of S64_APPEND in a state no
  run reaches (log entry 6). Safe. -/
  | consumeOnFullBuffer
deriving DecidableEq, Repr

/-- The reasons the model gives an action no meaning. -/
inductive Refusal where
  /-- An instruction that has no meaning yet, by its mnemonic. Raised by `exec` alone. Safe. -/
  | notModelled (mnemonic : String)
  /-- A transaction with more than 2^64 − 1 bytes of DATA. Raised by the command port: no such transaction exists on the
  hardware (R12, R90; log entry 7). Safe. -/
  | dataTooLong
deriving DecidableEq, Repr

/-- The state of the block (R30): the host-visible registers, the stream registers, the engine registers; and beside them
the model's own record of the host. `none` is the spec's "no value" (R51, log entry 3). -/
structure State where
  /-- RESULT (R33). -/
  result : Option U64
  /-- STATUS.CODE (R34, R35). The rest of STATUS is computed (`statusWord`). -/
  code : Code
  /-- SV, stream valid (R37). -/
  sv : Bool
  /-- FV, finalized view (R38). -/
  fv : Bool
  /-- S_SEED (R40). -/
  sSeed : Option U64
  /-- S_V1 to S_V4 (R41). -/
  sV : Option (Quad 64)
  /-- S_BUF (R42), the byte space BUF (R61). -/
  sBuf : Memory
  /-- S_BUFLEN, 6 bits (R43). -/
  sBufLen : Option (BitVec 6)
  /-- S_TOTAL (R44). -/
  sTotal : Option U64
  /-- E32.p, E32.h, E32.v1 to E32.v4 (R46): `none` outside a HASH32 command. -/
  e32 : Option (Engine 32)
  /-- E64.p, E64.h, E64.v1 to E64.v4 (R47): `none` outside a HASH64 command. -/
  e64 : Option (Engine 64)
  /-- The model's own: the host's next actions, oldest first (log entry 1). -/
  port : List HostAction
  /-- The model's own: what the host's last register read returned (log entry 8). -/
  hostRead : Option HostRead
deriving DecidableEq, Repr

/-- The state after reset (R51, R290). The model's own two fields are empty (DESIGN CHOICE, log entries 1 and 8). -/
def State.reset : State where
  result := none
  code := .ok
  sv := false
  fv := false
  sSeed := none
  sV := none
  sBuf := []
  sBufLen := none
  sTotal := none
  e32 := none
  e64 := none
  port := []
  hostRead := none

end Sys2Proof.Machine
end

