-- ==== Sys2Proof/Machine/Ops.lean ====
section
/-! DEFINITION. The named operations over registers and byte spaces, and the end of a command (R18, R19 of 00_scope.md;
20_memory.md; R260 to R264 of 60_exceptions.md). -/

namespace Sys2Proof.Machine

/-! ## Register writes: one per register, each changing that field alone -/

/-- RESULT <- v (R33). -/
def State.writeResult (s : State) (v : U64) : State := { s with result := some v }

/-- STATUS.CODE <- c (R34). -/
def State.writeCode (s : State) (c : Code) : State := { s with code := c }

/-- SV <- b (R37). -/
def State.writeSv (s : State) (b : Bool) : State := { s with sv := b }

/-- FV <- b (R38). -/
def State.writeFv (s : State) (b : Bool) : State := { s with fv := b }

/-- S_SEED <- v (R40). -/
def State.writeSeed (s : State) (v : U64) : State := { s with sSeed := some v }

/-- (S_V1, S_V2, S_V3, S_V4) <- q (R41). -/
def State.writeV (s : State) (q : Quad 64) : State := { s with sV := some q }

/-- The bytes of S_BUF after a consume (R42). -/
def State.writeBuf (s : State) (m : Memory) : State := { s with sBuf := m }

/-- S_BUFLEN <- n (R43). -/
def State.writeBufLen (s : State) (n : BitVec 6) : State := { s with sBufLen := some n }

/-- S_TOTAL <- v (R44). -/
def State.writeTotal (s : State) (v : U64) : State := { s with sTotal := some v }

/-- The E32 registers while HASH32 runs, or no value after it (R46). -/
def State.setE32 (s : State) (e : Option (Engine 32)) : State := { s with e32 := e }

/-- The E64 registers while HASH64 runs, or no value after it (R47). -/
def State.setE64 (s : State) (e : Option (Engine 64)) : State := { s with e64 := e }

/-- The host's remaining actions (log entry 1). -/
def State.setPort (s : State) (as : List HostAction) : State := { s with port := as }

/-- What a host read returned (log entry 8). -/
def State.setHostRead (s : State) (r : HostRead) : State := { s with hostRead := some r }

/-! ## Register reads: a register that holds no value is a model fault (R276 (a)) -/

/-- The value of a register, or the fault that names it: "a read of a register with no value is a model fault" (D10, R51,
R276 (a)). -/
def valueOf {α : Type} (r : Register) : Option α → Except Fault α
  | some v => .ok v
  | none => .error (.noValue r)

/-- S_SEED (R40). -/
def readSeed (s : State) : Except Fault U64 := valueOf .sSeed s.sSeed

/-- S_V1 to S_V4 (R41). -/
def readV (s : State) : Except Fault (Quad 64) := valueOf .sV s.sV

/-- S_TOTAL (R44). -/
def readTotal (s : State) : Except Fault U64 := valueOf .sTotal s.sTotal

/-- S_BUFLEN (R43); a length over 32 is the model fault of R276 (c). -/
def readBufLen (s : State) : Except Fault (BitVec 6) :=
  match valueOf .sBufLen s.sBufLen with
  | .ok n => if n.toNat ≤ Config.bufCap then .ok n else .error .bufLenOutOfRange
  | .error f => .error f

/-- E32.p, E32.h and E32.v1 to E32.v4 (R46). -/
def readE32 (s : State) : Except Fault (Engine 32) := valueOf .e32 s.e32

/-- E64.p, E64.h and E64.v1 to E64.v4 (R47). -/
def readE64 (s : State) : Except Fault (Engine 64) := valueOf .e64 s.e64

/-! ## The byte spaces (R60, R61) -/

/-- The byte of BUF at an offset, or what an unlisted offset reads as. -/
def Memory.read : Memory → Nat → Option U8
  | [], _ => Memory.unlisted
  | (k, b) :: m, a => if k = a then some b else Memory.read m a

/-- BUF with byte `b` at offset `a`, in canonical form again. -/
def Memory.write : Memory → Nat → U8 → Memory
  | [], a, b => [(a, b)]
  | (k, c) :: m, a, b =>
    if a < k then (a, b) :: (k, c) :: m
    else if a = k then (a, b) :: m
    else (k, c) :: Memory.write m a b

/-- `MemWrite(BUF, off, 1, b)` (R18): the only write; an offset of 32 or more is a model fault (R276 (c)). -/
def memWrite (m : Memory) (off : Nat) (b : U8) : Except Fault Memory :=
  if off < Config.bufCap then .ok (m.write off b) else .error .bufWriteOutOfRange

/-- The loop of R222: the bytes of `bs` written one at a time from offset `off` on. -/
def memWrites (m : Memory) (off : Nat) : List U8 → Except Fault Memory
  | [] => .ok m
  | b :: bs => do
    let m' ← memWrite m off b
    memWrites m' (off + 1) bs

/-- A byte space (R50): IN is the DATA of the running command, BUF is S_BUF. -/
inductive ByteSpace where
  | input (data : List U8)
  | buf (m : Memory)
deriving DecidableEq, Repr

/-- |S|: |DATA| for IN (R60), 32 for BUF (R61). -/
def ByteSpace.size : ByteSpace → Nat
  | .input data => data.length
  | .buf _ => Config.bufCap

/-- S[off]: out of range is the fault of U1, a byte of BUF with no value that of U3. -/
def ByteSpace.byteAt (S : ByteSpace) (off : Nat) : Except Fault U8 :=
  match S with
  | .input data =>
    match data[off]? with
    | some b => .ok b
    | none => .error .readOutOfRange
  | .buf m => if off < Config.bufCap then valueOf .sBuf (m.read off) else .error .readOutOfRange

/-- `sum over i < n of S[off + i] * 2^(8*i)` (R18, R62: little-endian). -/
def leSum (S : ByteSpace) (off : Nat) : Nat → Except Fault Nat
  | 0 => .ok 0
  | n + 1 => do
    let b ← S.byteAt off
    let rest ← leSum S (off + 1) n
    .ok (b.toNat + 2 ^ 8 * rest)

/-- `MemRead(S, off, n)` (R18), at any offset (R63); `off + n ≤ |S|` is checked here, and its failure is a model fault
(R64). -/
def memRead (S : ByteSpace) (off n : Nat) : Except Fault Nat :=
  if off + n ≤ S.size then leSum S off n else .error .readOutOfRange

/-- `k` passes of a loop body whose offset moves on by `width` at each pass (R32): the stripe and tail loops of
40_units.md, 41_hash32.md and 42_hash64.md, whose numbers of passes R137, R138, R162 and R192 give (log entry 11). -/
def passes {α : Type} (width : Nat) (body : α → Nat → Except Fault α) : Nat → α → Nat → Except Fault (α × Nat)
  | 0, x, p => .ok (x, p)
  | k + 1, x, p => do
    let x' ← body x p
    passes width body k x' (p + width)

/-! ## The end of a command -/

/-- `finish(code)` (R19, R260): every command ends with exactly one, and it writes STATUS.CODE. -/
def finish (c : Code) (s : State) : State := s.writeCode c

/-- `raise ERR_X` (R19, R264): the command makes no other change. The block has no trap, no saved state, no vector and no
mode (R268, R269): this is all an error does. -/
def raiseError (c : Code) (s : State) : State := finish c s

/-- A meaning's answer as an outcome of the step. -/
def toOutcome : Except Fault State → Host.Outcome State Fault Refusal
  | .ok s => .next s
  | .error f => .fault f

end Sys2Proof.Machine
end

