-- ==== Sys2Proof/Machine/Flags.lean ====
section
/-! DEFINITION. STATUS (R34, R35 of 10_state.md). The block has no condition codes and no arithmetic flags (R36): the
only status bits are CODE, SV and FV. -/

namespace Sys2Proof.Machine

/-- The number of a completion code (R35). -/
def Code.toBits : Code → BitVec 3
  | .ok => 0#3
  | .errIllegal => 1#3
  | .errNoStream => 2#3
  | .errLength => 3#3

/-- One status bit. -/
def statusBit (b : Bool) : BitVec 1 := BitVec.ofBool b

/-- STATUS as the host reads it (R34): CODE in [2:0], the mirrors of SV in [3] and FV in [4], and [7:5] hardwired 0. -/
def statusWord (s : State) : U8 := 0#3 ++ statusBit s.fv ++ statusBit s.sv ++ s.code.toBits

end Sys2Proof.Machine
end

