-- ==== Sys2Proof/Machine/Operands.lean ====
section
/-! DEFINITION. The operand forms of the commands (R92, R93 of 30_encoding.md). The commands have no others: no register,
no immediate, no address (R91). -/

namespace Sys2Proof.Machine

/-- HASH32's seed: `seed32 = SEED[31:0]`, the upper half ignored (R92). -/
def seed32 (seed : U64) : U32 := seed.extractLsb' 0 32

/-- The seed of HASH64 and S64_INIT: `seed64 = SEED` (R92). -/
def seed64 (seed : U64) : U64 := seed

/-- The byte space IN of a command: all of DATA (R60, R93). -/
def inputSpace (data : List U8) : ByteSpace := .input data

/-- `zext_64` of a 32-bit hash (R33, R17). -/
def zext64 (h : U32) : U64 := h.setWidth 64

end Sys2Proof.Machine
end

