-- ==== Sys2Proof/Machine/Units.lean ====
section
/-! DEFINITION. The datapath units of 40_units.md, each a pure total function of its operands (R141). The arithmetic of
`BitVec` wraps, as R17 of 00_scope.md asks. -/

namespace Sys2Proof.Machine

open Config

/-- `rotl_N(x, r)` for 0 < r < N (R17). -/
def rotl {w : Nat} (x : BitVec w) (r : Nat) : BitVec w := x <<< r ||| x >>> (w - r)

/-! ## Lane reader -/

/-- R120. -/
def lane32 (S : ByteSpace) (off : Nat) : Except Fault U32 := do
  let v ← memRead S off 4
  .ok (BitVec.ofNat 32 v)

/-- R121. -/
def lane64 (S : ByteSpace) (off : Nat) : Except Fault U64 := do
  let v ← memRead S off 8
  .ok (BitVec.ofNat 64 v)

/-- R122. -/
def byte (S : ByteSpace) (off : Nat) : Except Fault U8 := do
  let v ← memRead S off 1
  .ok (BitVec.ofNat 8 v)

/-! ## Round mixer and merge round -/

/-- R124. -/
def round32 (acc lane : U32) : U32 := rotl (acc + lane * p32_2) round32Rot * p32_1

/-- R125. -/
def round64 (acc lane : U64) : U64 := rotl (acc + lane * p64_2) round64Rot * p64_1

/-- R126: `acc` is the running result, `val` one raw accumulator (90_conflicts.md C6). -/
def merge64 (acc val : U64) : U64 := (acc ^^^ round64 0#64 val) * p64_1 + p64_4

/-! ## Accumulator seeding and converge -/

/-- R127, 32 bits. -/
def init32 (seed : U32) : Quad 32 :=
  { v1 := seed + p32_1 + p32_2, v2 := seed + p32_2, v3 := seed, v4 := seed - p32_1 }

/-- R127, 64 bits. -/
def init64 (seed : U64) : Quad 64 :=
  { v1 := seed + p64_1 + p64_2, v2 := seed + p64_2, v3 := seed, v4 := seed - p64_1 }

/-- The rotate-and-sum of R128 and R129, with the rotations of R9. -/
def rotateSum {w : Nat} (v : Quad w) : BitVec w :=
  rotl v.v1 converge1 + rotl v.v2 converge2 + rotl v.v3 converge3 + rotl v.v4 converge4

/-- R128: the 32-bit algorithm does not merge-round. -/
def converge32 (v : Quad 32) : U32 := rotateSum v

/-- R129: the rotate-sum, then the four folds in the order v1 to v4, each on the raw accumulator. -/
def converge64 (v : Quad 64) : U64 := merge64 (merge64 (merge64 (merge64 (rotateSum v) v.v1) v.v2) v.v3) v.v4

/-! ## Avalanche finalizer: three xor-shifts and two multiplies (90_conflicts.md C2) -/

/-- `h ^ (h >> r)`. -/
def xorShift {w : Nat} (h : BitVec w) (r : Nat) : BitVec w := h ^^^ h >>> r

/-- R130. -/
def avalanche32 (h : U32) : U32 := xorShift (xorShift (xorShift h 15 * p32_2) 13 * p32_3) 16

/-- R131. -/
def avalanche64 (h : U64) : U64 := xorShift (xorShift (xorShift h 33 * p64_2) 29 * p64_3) 32

/-! ## Tail steps (90_conflicts.md C4) -/

/-- R132. -/
def t4_32 (h lane : U32) : U32 := rotl (h + lane * p32_3) 17 * p32_4

/-- R133. -/
def t1_32 (h : U32) (b : U8) : U32 := rotl (h + b.setWidth 32 * p32_5) 11 * p32_1

/-- R134. -/
def t8_64 (h lane : U64) : U64 := rotl (h ^^^ round64 0#64 lane) 27 * p64_1 + p64_4

/-- R135: the lane is zero-extended before the multiply. -/
def t4_64 (h : U64) (lane : U32) : U64 := rotl (h ^^^ lane.setWidth 64 * p64_1) 23 * p64_2 + p64_3

/-- R136. -/
def t1_64 (h : U64) (b : U8) : U64 := rotl (h ^^^ b.setWidth 64 * p64_5) 11 * p64_1

/-! ## Stripes -/

/-- R139. -/
def stripe32 (S : ByteSpace) (v : Quad 32) (p : Nat) : Except Fault (Quad 32) := do
  let l1 ← lane32 S (p + 0)
  let l2 ← lane32 S (p + 4)
  let l3 ← lane32 S (p + 8)
  let l4 ← lane32 S (p + 12)
  .ok { v1 := round32 v.v1 l1, v2 := round32 v.v2 l2, v3 := round32 v.v3 l3, v4 := round32 v.v4 l4 }

/-- R140. -/
def stripe64 (S : ByteSpace) (v : Quad 64) (p : Nat) : Except Fault (Quad 64) := do
  let l1 ← lane64 S (p + 0)
  let l2 ← lane64 S (p + 8)
  let l3 ← lane64 S (p + 16)
  let l4 ← lane64 S (p + 24)
  .ok { v1 := round64 v.v1 l1, v2 := round64 v.v2 l2, v3 := round64 v.v3 l3, v4 := round64 v.v4 l4 }

/-! ## Tail procedures. Each answers the result and the offset it ended at. -/

/-- One pass of the first loop of R137. -/
def tailLane32 (S : ByteSpace) (h : U32) (p : Nat) : Except Fault U32 := do
  let l ← lane32 S p
  .ok (t4_32 h l)

/-- One pass of the second loop of R137. -/
def tailByte32 (S : ByteSpace) (h : U32) (p : Nat) : Except Fault U32 := do
  let b ← byte S p
  .ok (t1_32 h b)

/-- R137: (e − p) div 4 lane steps, then one byte step for each byte left. -/
def tail32 (h : U32) (S : ByteSpace) (p e : Nat) : Except Fault (U32 × Nat) := do
  let (h, p) ← passes lane32Bytes (tailLane32 S) ((e - p) / lane32Bytes) h p
  passes 1 (tailByte32 S) (e - p) h p

/-- One pass of the first loop of R138. -/
def tailLane64 (S : ByteSpace) (h : U64) (p : Nat) : Except Fault U64 := do
  let l ← lane64 S p
  .ok (t8_64 h l)

/-- The 4-byte step of R138. -/
def tailHalf64 (S : ByteSpace) (h : U64) (p : Nat) : Except Fault U64 := do
  let l ← lane32 S p
  .ok (t4_64 h l)

/-- One pass of the last loop of R138. -/
def tailByte64 (S : ByteSpace) (h : U64) (p : Nat) : Except Fault U64 := do
  let b ← byte S p
  .ok (t1_64 h b)

/-- R138: (e − p) div 8 8-byte steps, one 4-byte step if four bytes are left, then one byte step for each byte left. -/
def tail64 (h : U64) (S : ByteSpace) (p e : Nat) : Except Fault (U64 × Nat) := do
  let (h, p) ← passes lane64Bytes (tailLane64 S) ((e - p) / lane64Bytes) h p
  let (h, p) ← passes lane32Bytes (tailHalf64 S) (if p + lane32Bytes ≤ e then 1 else 0) h p
  passes 1 (tailByte64 S) (e - p) h p

end Sys2Proof.Machine
end

