-- ==== Sys2Proof/Machine/Hash32.lean ====
section
/-! DEFINITION. xxHash32_core and the command HASH32 (41_hash32.md). -/

namespace Sys2Proof.Machine

open Config

/-- Steps 1 and 2 of R160: the long entry path exactly when n ≥ 16, on the full length (R161), with n div 16 stripes
(R162); else the short one. -/
def entry32 (seed : U32) (S : ByteSpace) (n : Nat) : Except Fault (Engine 32) :=
  if n ≥ chunk32 then do
    let (v, p) ← passes chunk32 (stripe32 S) (n / chunk32) (init32 seed) 0
    .ok { p := p, h := converge32 v, v := some v }
  else .ok { p := 0, h := seed + p32_5, v := none }

/-- The length term, `trunc_32(n)`, on both paths (R163, R164). -/
def addLength32 (e : Engine 32) (n : Nat) : Engine 32 := { e with h := e.h + BitVec.ofNat 32 n }

/-- The engine registers as they stand before the avalanche of R160. -/
def engine32 (seed : U32) (S : ByteSpace) (n : Nat) : Except Fault (Engine 32) := do
  let e ← entry32 seed S n
  let e := addLength32 e n
  let (h, p) ← tail32 e.h S e.p n
  .ok { e with h := h, p := p }

/-- HASH32 (R160). SEED[63:32] is ignored (R92), no stream register is read or written (R166), and the engine registers
hold no value once the command has ended (R46). -/
def execHash32 (seed : U64) (data : List U8) (s : State) : Host.Outcome State Fault Refusal :=
  toOutcome do
    let e ← engine32 (seed32 seed) (inputSpace data) data.length
    let s := s.setE32 (some e)
    let e ← readE32 s
    .ok (finish .ok ((s.writeResult (zext64 (avalanche32 e.h))).setE32 none))

end Sys2Proof.Machine
end

