-- ==== Sys2Proof/Machine/Hash64.lean ====
section
/-! DEFINITION. xxHash64_core and the command HASH64 (42_hash64.md). -/

namespace Sys2Proof.Machine

open Config

/-- The entry paths of R190: the long one exactly when n ≥ 32 (R191), with n div 32 stripes (R192) and the merge rounds
after the rotate-sum (R194); else the short one. -/
def entry64 (seed : U64) (S : ByteSpace) (n : Nat) : Except Fault (Engine 64) :=
  if n ≥ chunk64 then do
    let (v, p) ← passes chunk64 (stripe64 S) (n / chunk64) (init64 seed) 0
    .ok { p := p, h := converge64 v, v := some v }
  else .ok { p := 0, h := seed + p64_5, v := none }

/-- The length term, n itself, on both paths (R193). -/
def addLength64 (e : Engine 64) (n : Nat) : Engine 64 := { e with h := e.h + BitVec.ofNat 64 n }

/-- The engine registers as they stand before the avalanche of R190. -/
def engine64 (seed : U64) (S : ByteSpace) (n : Nat) : Except Fault (Engine 64) := do
  let e ← entry64 seed S n
  let e := addLength64 e n
  let (h, p) ← tail64 e.h S e.p n
  .ok { e with h := h, p := p }

/-- HASH64 (R190). No stream register is read or written (R196), and the engine registers hold no value once the command
has ended (R47). -/
def execHash64 (seed : U64) (data : List U8) (s : State) : Host.Outcome State Fault Refusal :=
  toOutcome do
    let e ← engine64 (seed64 seed) (inputSpace data) data.length
    let s := s.setE64 (some e)
    let e ← readE64 s
    .ok (finish .ok ((s.writeResult (avalanche64 e.h)).setE64 none))

end Sys2Proof.Machine
end

