-- ==== Sys2Proof/Machine/Stream64.lean ====
section
/-! DEFINITION. streaming_hash64_accumulator: the bounded chunk buffer and the three stream commands (43_stream64.md). -/

namespace Sys2Proof.Machine

open Config

/-! ## Bounded chunk buffer -/

/-- R221. -/
def available (s : State) : Except Fault Nat := do
  let n ← readBufLen s
  .ok (bufCap - n.toNat)

/-- R223. -/
def isFull (s : State) : Except Fault Bool := do
  let n ← readBufLen s
  .ok (decide (n.toNat = bufCap))

/-- R222: copies min(available(), |B|) bytes to S_BUF from S_BUFLEN on, and answers how many, the unconsumed suffix, and
the state. On a full buffer it copies nothing (90_conflicts.md C3). -/
def consume (B : List U8) (s : State) : Except Fault (Nat × List U8 × State) := do
  let room ← available s
  let n ← readBufLen s
  let k := min room B.length
  let m ← memWrites s.sBuf n.toNat (B.take k)
  .ok (k, B.drop k, (s.writeBuf m).writeBufLen (n + BitVec.ofNat 6 k))

/-- R226: one stripe over BUF into the stream's accumulators, and S_BUFLEN <- 0. The bytes stay (R42). -/
def drain (s : State) : Except Fault State := do
  let v ← readV s
  let v ← stripe64 (.buf s.sBuf) v 0
  .ok ((s.writeV v).writeBufLen 0#6)

/-- One pass of the loop of R232. Calling consume on a full buffer is the fault of U2 (log entry 6). -/
def absorbPass (rest : List U8) (s : State) : Except Fault (List U8 × State) := do
  let full ← isFull s
  if full then .error .consumeOnFullBuffer
  else do
    let (k, rest, s) ← consume rest s
    let total ← readTotal s
    let s := s.writeTotal (total + BitVec.ofNat 64 k)
    let full ← isFull s
    if full then do
      let s ← drain s
      .ok (rest, s)
    else .ok (rest, s)

/-- The loop of R232, which ends after at most |DATA| passes: `fuel` is that bound. Every pass absorbs a byte or faults,
so the bound is never met with bytes left, and that case is the fault of a pass that absorbed nothing (log entry 11). -/
def absorb : Nat → List U8 → State → Except Fault State
  | _, [], s => .ok s
  | 0, _ :: _, _ => .error .consumeOnFullBuffer
  | fuel + 1, b :: bs, s => do
    let (rest, s) ← absorbPass (b :: bs) s
    absorb fuel rest s

/-! ## The commands -/

/-- S64_INIT (R228): accepted in every state, DATA ignored, S_BUF and RESULT unchanged. -/
def execS64Init (seed : U64) (_data : List U8) (s : State) : Host.Outcome State Fault Refusal :=
  let seed := seed64 seed
  let s := (s.writeSeed seed).writeV (init64 seed)
  let s := (s.writeBufLen 0#6).writeTotal 0#64
  .next (finish .ok ((s.writeSv true).writeFv false))

/-- S64_APPEND (R232): ERR_NO_STREAM first (R266), then ERR_LENGTH by an exact comparison (R265), and every check before
any byte is absorbed (R264). SEED is ignored. -/
def execS64Append (_seed : U64) (data : List U8) (s : State) : Host.Outcome State Fault Refusal :=
  toOutcome (
    if s.sv = false then .ok (raiseError .errNoStream s)
    else do
      let total ← readTotal s
      if total.toNat + data.length > maxTotal then .ok (raiseError .errLength s)
      else do
        let s ← absorb data.length data s
        .ok (finish .ok (s.writeFv false)))

/-- The entry path of R236: converge64 of the stream's accumulators, or S_SEED + P64_5. -/
def finalBase (s : State) (total : U64) : Except Fault U64 :=
  if total.toNat ≥ chunk64 then do
    let v ← readV s
    .ok (converge64 v)
  else do
    let seed ← readSeed s
    .ok (seed + p64_5)

/-- S64_FINAL (R236): writes RESULT, FV and STATUS.CODE and no other register (R237). SEED and DATA are ignored. -/
def execS64Final (_seed : U64) (_data : List U8) (s : State) : Host.Outcome State Fault Refusal :=
  toOutcome (
    if s.sv = false then .ok (raiseError .errNoStream s)
    else do
      let total ← readTotal s
      let h ← finalBase s total
      let len ← readBufLen s
      let (h, _) ← tail64 (h + total) (.buf s.sBuf) 0 (len &&& 31#6).toNat
      .ok (finish .ok ((s.writeResult (avalanche64 h)).writeFv true)))

end Sys2Proof.Machine
end

