-- ==== Sys2Proof/Machine/Dispatch.lean ====
section
/-! DEFINITION. The meaning of each command of the opcode map (R94 of 30_encoding.md), one arm each. -/

namespace Sys2Proof.Machine

def exec (i : Instr) (s : State) : Host.Outcome State Fault Refusal :=
  match i with
  | .hash32 seed data => Sys2Proof.Machine.execHash32 seed data s
  | .hash64 seed data => Sys2Proof.Machine.execHash64 seed data s
  | .s64Init seed data => Sys2Proof.Machine.execS64Init seed data s
  | .s64Append seed data => Sys2Proof.Machine.execS64Append seed data s
  | .s64Final seed data => Sys2Proof.Machine.execS64Final seed data s

end Sys2Proof.Machine
end

