-- ==== Sys2Proof/Machine/Port.lean ====
section
/-! DEFINITION. The host's side of the block: the command port, the register reads and reset (30_encoding.md section 1;
R33, R34 and R48 of 10_state.md; R65 of 20_memory.md; R290 and R291 of 70_reset_and_hazards.md). -/

namespace Sys2Proof.Machine

/-- An ILLEGAL command word (R96, R262): STATUS.CODE = ERR_ILLEGAL and nothing else, the operands unread. -/
def illegalCommand (s : State) : State := raiseError .errIllegal s

/-- One command on the port (R90): decode precedes everything (R266). A transaction longer than the port can carry does
not exist (R12; log entry 7). -/
def runCommand (t : Transaction) (s : State) : Host.Outcome State Fault Refusal :=
  if t.WellFormed then
    match decode t with
    | .ok i => exec i s
    | .error _ => .next (illegalCommand s)
  else .refused .dataTooLong

/-- Byte `k` of a number, byte 0 the least significant (R16). -/
def byteOf (v : U64) (k : Nat) : U8 := v.extractLsb' (8 * k) 8

/-- RESULT's bytes as a byte-wide bus shows them, first byte first, in the platform's layout (R65, D26). -/
def resultBytes (layout : Config.ByteLayout) (v : U64) : List U8 :=
  match layout with
  | .little => (List.range 8).map (byteOf v)
  | .big => ((List.range 8).map (byteOf v)).reverse

/-- The host reads STATUS (R34). -/
def hostReadStatus (s : State) : Host.Outcome State Fault Refusal := .next (s.setHostRead (.status (statusWord s)))

/-- The host reads RESULT (R33): with no value it is a model fault (R276 (a)). -/
def hostReadResult (s : State) : Host.Outcome State Fault Refusal :=
  toOutcome do
    let v ← valueOf .result s.result
    .ok (s.setHostRead (.result v))

/-- The host reads RESULT byte by byte (R65). -/
def hostReadResultBytes (layout : Config.ByteLayout) (s : State) : Host.Outcome State Fault Refusal :=
  toOutcome do
    let v ← valueOf .result s.result
    .ok (s.setHostRead (.resultBytes (resultBytes layout v)))

/-- Reset (R290): every register of the block at its reset value, whatever it held. The host's own record stays (log
entry 10). -/
def hostReset (s : State) : State := { State.reset with port := s.port, hostRead := s.hostRead }

/-- What one host action does. -/
def hostAct (a : HostAction) (s : State) : Host.Outcome State Fault Refusal :=
  match a with
  | .command t => runCommand t s
  | .readStatus => hostReadStatus s
  | .readResult => hostReadResult s
  | .readResultBytes layout => hostReadResultBytes layout s
  | .reset => .next (hostReset s)

/-- Between commands the block is idle and every register keeps its value (R275). -/
def idle (s : State) : State := s

/-- The host's next action is this command. -/
def placeCommand (t : Transaction) (s : State) : State := s.setPort (.command t :: s.port)

end Sys2Proof.Machine
end

