-- ==== Sys2Proof/Machine/Step.lean ====
section
/-! DEFINITION. One step: the host's next action, whole and atomic (R22 of 00_scope.md, R70 of 20_memory.md), or idle. -/

namespace Sys2Proof.Machine

/-- One step of the block. A command is one step from acceptance to completion (R70, R299). -/
def step (s : State) : Host.Outcome State Fault Refusal :=
  match s.port with
  | [] => .next (idle s)
  | a :: rest => hostAct a (s.setPort rest)

/-- The block fetches nothing (R32): the word of an opcode-table row is placed as the host's next command, with SEED = 0
and no DATA, so that the very next step runs it (log entries 1 and 2). -/
def State.withFetchWord (s : State) (nbits w : Nat) : State := placeCommand (tableTransaction nbits w) s

end Sys2Proof.Machine
end

