-- ==== Sys2Proof/Machine/Assembler.lean ====
section
/-! DEFINITION. The assembler notation of R99 and the pseudo-instructions of R100 (30_encoding.md): from a line of text to
a command transaction, and a transaction's written form. Conventions the rules leave open are in log entry 13. -/

namespace Sys2Proof.Machine

/-- A line of R99 once read: the seed as the number written, the data as its bytes. -/
inductive AsmCommand where
  | hash32 (seed : Nat) (data : List U8)
  | hash64 (seed : Nat) (data : List U8)
  | s64Init (seed : Nat)
  | s64Append (data : List U8)
  | s64Final
deriving DecidableEq, Repr

/-- The pseudo-instructions of R100. -/
inductive Pseudo where
  | hash32 (data : List U8)
  | hash32Seeded (data : List U8) (seed : Nat)
  | hash64 (data : List U8)
  | hash64Seeded (data : List U8) (seed : Nat)
  | s64New
  | s64NewSeeded (seed : Nat)
deriving DecidableEq, Repr

/-- Why a line is refused. -/
inductive AsmError where
  /-- No form of R99 or R100 begins with this word. -/
  | unknownMnemonic
  /-- Not an unsigned decimal or 0x hexadecimal literal. -/
  | badSeed
  /-- 2^32 or more for HASH32, 2^64 or more for HASH64 and S64.INIT. -/
  | seedTooWide
  /-- Neither "text" nor hex:<pairs>. -/
  | badData
  /-- A comma is missing or something follows the operands. -/
  | badOperands
deriving DecidableEq, Repr

/-- The one command a pseudo-instruction stands for (R100); the default seed is that of R14. -/
def Pseudo.expand : Pseudo → AsmCommand
  | .hash32 data => .hash32 Config.defaultSeed data
  | .hash32Seeded data seed => .hash32 seed data
  | .hash64 data => .hash64 Config.defaultSeed data
  | .hash64Seeded data seed => .hash64 seed data
  | .s64New => .s64Init Config.defaultSeed
  | .s64NewSeeded seed => .s64Init seed

/-- A seed literal of at most `bits` bits (R99: an assembler refuses a wider one). -/
def seedWithin (bits seed : Nat) : Except AsmError U64 :=
  if seed < 2 ^ bits then .ok (BitVec.ofNat 64 seed) else .error .seedTooWide

/-- The transaction a command assembles to. An operand the form does not write is 0 or empty, as in the assembled forms of
95_test_vectors.md. -/
def assemble : AsmCommand → Except AsmError Transaction
  | .hash32 seed data => do
    let v ← seedWithin 32 seed
    .ok (encode (.hash32 v data))
  | .hash64 seed data => do
    let v ← seedWithin 64 seed
    .ok (encode (.hash64 v data))
  | .s64Init seed => do
    let v ← seedWithin 64 seed
    .ok (encode (.s64Init v []))
  | .s64Append data => .ok (encode (.s64Append 0#64 data))
  | .s64Final => .ok (encode (.s64Final 0#64 []))

/-! ## Reading a line -/

/-- A blank between the parts of a line. -/
def isBlank (c : Char) : Bool := c == ' ' || c == '\t'

/-- The line without its leading blanks. -/
def skipBlanks (cs : List Char) : List Char := cs.dropWhile isBlank

/-- A character that can stand in a mnemonic, a number or the pairs after `hex:`. -/
def inToken (c : Char) : Bool := !(isBlank c || c == ',' || c == ';')

/-- The value of a hexadecimal digit. -/
def hexDigit (c : Char) : Option Nat :=
  if '0' ≤ c ∧ c ≤ '9' then some (c.toNat - '0'.toNat)
  else if 'a' ≤ c ∧ c ≤ 'f' then some (c.toNat - 'a'.toNat + 10)
  else if 'A' ≤ c ∧ c ≤ 'F' then some (c.toNat - 'A'.toNat + 10)
  else none

/-- The digits of a number in a base, most significant first, onto the value read so far. -/
def digitsValue (base : Nat) : Nat → List Char → Option Nat
  | v, [] => some v
  | v, c :: cs =>
    match hexDigit c with
    | some d => if d < base then digitsValue base (v * base + d) cs else none
    | none => none

/-- What follows a prefix. -/
def afterPrefix : List Char → List Char → Option (List Char)
  | [], cs => some cs
  | _ :: _, [] => none
  | p :: ps, c :: cs => if p = c then afterPrefix ps cs else none

/-- A number in a base; no digits at all is no number. -/
def readNumber (base : Nat) (cs : List Char) : Except AsmError Nat :=
  match cs.isEmpty, digitsValue base 0 cs with
  | false, some n => .ok n
  | _, _ => .error .badSeed

/-- `<seed>`: an unsigned literal in decimal or 0x hexadecimal (R99). -/
def readSeedToken (cs : List Char) : Except AsmError Nat :=
  match afterPrefix "0x".toList cs with
  | some ds => readNumber 16 ds
  | none => readNumber 10 cs

/-- A seed operand and what follows it. -/
def readSeed? (cs : List Char) : Except AsmError (Nat × List Char) := do
  let cs := skipBlanks cs
  let n ← readSeedToken (cs.takeWhile inToken)
  .ok (n, cs.dropWhile inToken)

/-- The pairs after `hex:`, in order; none is the empty sequence (R99). -/
def hexPairs : List Char → Option (List U8)
  | [] => some []
  | a :: b :: cs =>
    match hexDigit a, hexDigit b, hexPairs cs with
    | some x, some y, some bs => some (BitVec.ofNat 8 (16 * x + y) :: bs)
    | _, _, _ => none
  | [_] => none

/-- The bytes of a text up to its closing quote: its ASCII encoding, with no terminator (R99). -/
def quotedBytes : List Char → Option (List U8 × List Char)
  | [] => none
  | c :: cs =>
    if c = '"' then some ([], cs)
    else if c.toNat < 128 then
      match quotedBytes cs with
      | some (bs, rest) => some (BitVec.ofNat 8 c.toNat :: bs, rest)
      | none => none
    else none

/-- A data operand and what follows it. -/
def readData? (cs : List Char) : Except AsmError (List U8 × List Char) :=
  let cs := skipBlanks cs
  match afterPrefix ['"'] cs, afterPrefix "hex:".toList cs with
  | some rest, _ => (quotedBytes rest).elim (.error .badData) .ok
  | none, some rest => (hexPairs (rest.takeWhile inToken)).elim (.error .badData) fun bs => .ok (bs, rest.dropWhile inToken)
  | none, none => .error .badData

/-- The comma between two operands. -/
def readComma (cs : List Char) : Except AsmError (List Char) :=
  (afterPrefix [','] (skipBlanks cs)).elim (.error .badOperands) .ok

/-- Nothing but a comment, from `;` to the end of the line, may follow (R99). -/
def lineEnds (cs : List Char) : Bool :=
  match skipBlanks cs with
  | [] => true
  | c :: _ => c == ';'

/-- The command, if the line ends there. -/
def ended (c : AsmCommand) (cs : List Char) : Except AsmError AsmCommand :=
  if lineEnds cs then .ok c else .error .badOperands

/-- Operands `<seed>, <data>`. -/
def readSeedData (f : Nat → List U8 → AsmCommand) (cs : List Char) : Except AsmError AsmCommand := do
  let (seed, cs) ← readSeed? cs
  let cs ← readComma cs
  let (data, cs) ← readData? cs
  ended (f seed data) cs

/-- Operands `<data>, <s>`. -/
def readDataSeed (f : List U8 → Nat → Pseudo) (cs : List Char) : Except AsmError AsmCommand := do
  let (data, cs) ← readData? cs
  let cs ← readComma cs
  let (seed, cs) ← readSeed? cs
  ended (f data seed).expand cs

/-- One operand `<seed>`. -/
def readOneSeed (f : Nat → AsmCommand) (cs : List Char) : Except AsmError AsmCommand := do
  let (seed, cs) ← readSeed? cs
  ended (f seed) cs

/-- One operand `<data>`. -/
def readOneData (f : List U8 → AsmCommand) (cs : List Char) : Except AsmError AsmCommand := do
  let (data, cs) ← readData? cs
  ended (f data) cs

/-- The operands that follow a mnemonic: the five forms of R99 and the six of R100. -/
def readOperands (mnemonic : List Char) (cs : List Char) : Except AsmError AsmCommand :=
  if mnemonic = "HASH32".toList then readSeedData .hash32 cs
  else if mnemonic = "HASH64".toList then readSeedData .hash64 cs
  else if mnemonic = "S64.INIT".toList then readOneSeed .s64Init cs
  else if mnemonic = "S64.APPEND".toList then readOneData .s64Append cs
  else if mnemonic = "S64.FINAL".toList then ended .s64Final cs
  else if mnemonic = "hash32".toList then readOneData (fun d => (Pseudo.hash32 d).expand) cs
  else if mnemonic = "hash32_seeded".toList then readDataSeed .hash32Seeded cs
  else if mnemonic = "hash64".toList then readOneData (fun d => (Pseudo.hash64 d).expand) cs
  else if mnemonic = "hash64_seeded".toList then readDataSeed .hash64Seeded cs
  else if mnemonic = "S64.NEW".toList then ended Pseudo.s64New.expand cs
  else if mnemonic = "S64.NEW_SEEDED".toList then readOneSeed (fun s => (Pseudo.s64NewSeeded s).expand) cs
  else .error .unknownMnemonic

/-- One line of assembly (R99: one command a line); a blank or comment line holds none. -/
def assembleLine (cs : List Char) : Except AsmError (Option Transaction) :=
  if lineEnds cs then .ok none
  else do
    let cs := skipBlanks cs
    let c ← readOperands (cs.takeWhile inToken) (cs.dropWhile inToken)
    let t ← assemble c
    .ok (some t)

/-! ## Writing an assembled command -/

/-- A hexadecimal digit, capital for CMD and SEED, small for DATA, as 95_test_vectors.md writes them. -/
def hexChar (capital : Bool) (d : Nat) : Char :=
  if d < 10 then Char.ofNat ('0'.toNat + d)
  else Char.ofNat ((if capital then 'A'.toNat else 'a'.toNat) + (d - 10))

/-- A number as `n` hexadecimal digits. -/
def hexChars (capital : Bool) : Nat → Nat → List Char
  | 0, _ => []
  | n + 1, v => hexChars capital n (v / 16) ++ [hexChar capital (v % 16)]

/-- `CMD=0xNN SEED=0x<16 hex digits> DATA=<n bytes in hex>` (R99). -/
def renderTransaction (t : Transaction) : List Char :=
  "CMD=0x".toList ++ hexChars true 2 t.cmd.toNat ++ " SEED=0x".toList ++ hexChars true 16 t.seed.toNat ++
    " DATA=".toList ++ t.data.flatMap (fun b => hexChars false 2 b.toNat)

end Sys2Proof.Machine
end

