-- ==== Sys2Proof/Safety.lean ====
section
/-! DEFINITION. The terms claims are made in: the two hashes as plain functions of a seed and a list of bytes (R48 of
10_state.md lets a command be computed so), what a stream has absorbed (R45), and what a good state and a safe run are. -/

namespace Sys2Proof.Machine

open Config

/-! ## The hashes as functions of a byte list: no offsets, no byte spaces, no faults -/

/-- The number a byte list spells, first byte least significant (R62). -/
def leNat : List U8 → Nat
  | [] => 0
  | b :: bs => b.toNat + 256 * leNat bs

/-- The `w`-bit lane made of the first `n` bytes of a list. -/
def laneOf (w n : Nat) (bs : List U8) : BitVec w := BitVec.ofNat w (leNat (bs.take n))

/-- R139 on the 16 bytes at the head of a list: lane i feeds accumulator i alone. -/
def chunkStripe32 (v : Quad 32) (c : List U8) : Quad 32 :=
  { v1 := round32 v.v1 (laneOf 32 4 c)
    v2 := round32 v.v2 (laneOf 32 4 (c.drop 4))
    v3 := round32 v.v3 (laneOf 32 4 (c.drop 8))
    v4 := round32 v.v4 (laneOf 32 4 (c.drop 12)) }

/-- R140 on the 32 bytes at the head of a list. -/
def chunkStripe64 (v : Quad 64) (c : List U8) : Quad 64 :=
  { v1 := round64 v.v1 (laneOf 64 8 c)
    v2 := round64 v.v2 (laneOf 64 8 (c.drop 8))
    v3 := round64 v.v3 (laneOf 64 8 (c.drop 16))
    v4 := round64 v.v4 (laneOf 64 8 (c.drop 24)) }

/-- A step function applied to the first `k` chunks of `size` bytes, in order. -/
def overChunks {α : Type} (size : Nat) (f : α → List U8 → α) : Nat → α → List U8 → α
  | 0, x, _ => x
  | k + 1, x, bs => overChunks size f k (f x bs) (bs.drop size)

/-- The accumulators after `k` processing chunks of XXH32. -/
def stripes32Of (k : Nat) (v : Quad 32) (bs : List U8) : Quad 32 := overChunks chunk32 chunkStripe32 k v bs

/-- The accumulators after `k` processing chunks of XXH64. -/
def stripes64Of (k : Nat) (v : Quad 64) (bs : List U8) : Quad 64 := overChunks chunk64 chunkStripe64 k v bs

/-- The tail of XXH32 by its shape (R137, R162): one step for each whole lane, then one for each byte left. -/
def hashTail32 (h : U32) (bs : List U8) : U32 :=
  let lanes := bs.length / 4
  (bs.drop (4 * lanes)).foldl t1_32 (overChunks 4 (fun h c => t4_32 h (laneOf 32 4 c)) lanes h bs)

/-- What is left of an XXH64 tail of fewer than 8 bytes (R192): one 4-byte step if four bytes are left, then bytes. -/
def hashRest64 (h : U64) (bs : List U8) : U64 :=
  if bs.length < 4 then bs.foldl t1_64 h else (bs.drop 4).foldl t1_64 (t4_64 h (laneOf 32 4 bs))

/-- The tail of XXH64 by its shape (R138, R192): one step for each whole 8-byte lane, then the rest. -/
def hashTail64 (h : U64) (bs : List U8) : U64 :=
  let lanes := bs.length / 8
  hashRest64 (overChunks 8 (fun h c => t8_64 h (laneOf 64 8 c)) lanes h bs) (bs.drop (8 * lanes))

/-- XXH32 of a byte list (R160 to R164). -/
def xxh32 (seed : U32) (bs : List U8) : U32 :=
  let whole := bs.length / chunk32
  let base := if bs.length < chunk32 then seed + p32_5 else converge32 (stripes32Of whole (init32 seed) bs)
  avalanche32 (hashTail32 (base + BitVec.ofNat 32 bs.length) (bs.drop (chunk32 * whole)))

/-- XXH64 of a byte list (R190 to R194). -/
def xxh64 (seed : U64) (bs : List U8) : U64 :=
  let whole := bs.length / chunk64
  let base := if bs.length < chunk64 then seed + p64_5 else converge64 (stripes64Of whole (init64 seed) bs)
  avalanche64 (hashTail64 (base + BitVec.ofNat 64 bs.length) (bs.drop (chunk64 * whole)))

/-! ## What a stream holds -/

/-- The first bytes of BUF are these. -/
def Memory.Holds (m : Memory) (bs : List U8) : Prop := ∀ i, i < bs.length → m.read i = bs[i]?

/-- What absorbing `data` from S_BUFLEN = `len` on does to BUF (R222, R226, R232): each byte goes to the offset its place
in the stream has within its chunk, so the last 32 of them are there afterwards; every other offset keeps its byte. -/
def BufAbsorbs (m m' : Memory) (len : Nat) (data : List U8) : Prop :=
  (∀ i, i < data.length → data.length ≤ i + 32 → m'.read ((len + i) % 32) = data[i]?) ∧
    ∀ x, (∀ i, i < data.length → (len + i) % 32 ≠ x) → m'.read x = m.read x

/-- The stream registers hold these values, and BUF the bytes not drained yet, fewer than a chunk (R43, R45). -/
structure LiveAt (s : State) (v : Quad 64) (total : U64) (held : List U8) : Prop where
  sV : s.sV = some v
  sTotal : s.sTotal = some total
  sBufLen : s.sBufLen = some (BitVec.ofNat 6 held.length)
  lt : held.length < 32
  holds : s.sBuf.Holds held

/-- R45, R235: the stream was started with `seed` and has absorbed exactly the bytes `bs` since. -/
structure Absorbed (s : State) (seed : U64) (bs : List U8) : Prop where
  sv : s.sv = true
  sSeed : s.sSeed = some seed
  /-- S_TOTAL never wraps (R44). -/
  short : bs.length ≤ maxTotal
  sTotal : s.sTotal = some (BitVec.ofNat 64 bs.length)
  sBufLen : s.sBufLen = some (BitVec.ofNat 6 (bs.length % chunk64))
  sV : s.sV = some (stripes64Of (bs.length / chunk64) (init64 seed) bs)
  sBuf : s.sBuf.Holds (bs.drop (chunk64 * (bs.length / chunk64)))

/-- While SV = 1 (R45): every stream register holds a value, S_BUFLEN = S_TOTAL mod 32, and so does every byte of S_BUF
below S_BUFLEN. -/
def StreamLive (s : State) : Prop :=
  ∃ seed v total len, s.sSeed = some seed ∧ s.sV = some v ∧ s.sTotal = some total ∧ s.sBufLen = some len ∧
    len.toNat = total.toNat % chunk64 ∧ ∀ i, i < len.toNat → ∃ b, s.sBuf.read i = some b

/-- While SV = 0 no stream register holds a value (R37, R51: SV = 0 from reset until the first S64_INIT). -/
def StreamNone (s : State) : Prop :=
  s.sSeed = none ∧ s.sV = none ∧ s.sBuf = [] ∧ s.sBufLen = none ∧ s.sTotal = none

/-! ## Good states and safe runs -/

/-- What holds of the block between commands. -/
structure Inv (s : State) : Prop where
  /-- BUF is in canonical form, with no offset of 32 or more (R61). -/
  buf : s.sBuf.wf
  /-- R45. -/
  live : s.sv = true → StreamLive s
  /-- R37, R51. -/
  off : s.sv = false → StreamNone s
  /-- R39: (SV, FV) = (0, 1) never occurs; and FV = 1 says that S64_FINAL has written RESULT (R38, R236). -/
  finalized : s.fv = true → s.sv = true ∧ s.result ≠ none
  /-- R46: no E32 register holds a value outside a HASH32 command. -/
  engine32 : s.e32 = none
  /-- R47. -/
  engine64 : s.e64 = none

/-- The full R45: `Inv`, and a live stream is the work of one seed and one byte sequence. -/
def HistoryInv (s : State) : Prop := Inv s ∧ (s.sv = true → ∃ seed bs, Absorbed s seed bs)

/-- A host action the interface allows in this state: DATA fits the port (R12), and RESULT is read only when it holds a
value (R293). -/
def ActionAllowed (s : State) : HostAction → Prop
  | .command t => t.WellFormed
  | .readResult => s.result ≠ none
  | .readResultBytes _ => s.result ≠ none
  | .readStatus => True
  | .reset => True

/-- The block goes on: the next step is a next state. -/
def Progresses (s : State) : Prop := ∃ t, step s = .next t

/-- The commands `is` run one after another, stopping at the first fault or refusal. -/
def execAll : List Instr → State → Host.Outcome State Fault Refusal
  | [], s => .next s
  | i :: is, s =>
    match exec i s with
    | .next t => execAll is t
    | .fault f => .fault f
    | .refused r => .refused r

/-- The bytes a list of commands appends to the stream, in order (R232). -/
def appendedBytes : List Instr → List U8
  | [] => []
  | .s64Append _ data :: is => data ++ appendedBytes is
  | .hash32 _ _ :: is => appendedBytes is
  | .hash64 _ _ :: is => appendedBytes is
  | .s64Init _ _ :: is => appendedBytes is
  | .s64Final _ _ :: is => appendedBytes is

/-- HASH32 (R160). -/
def isHash32 : Instr → Bool
  | .hash32 _ _ => true
  | .hash64 _ _ | .s64Init _ _ | .s64Append _ _ | .s64Final _ _ => false

/-- HASH64 (R190). -/
def isHash64 : Instr → Bool
  | .hash64 _ _ => true
  | .hash32 _ _ | .s64Init _ _ | .s64Append _ _ | .s64Final _ _ => false

/-- S64_INIT (R228). -/
def isInit : Instr → Bool
  | .s64Init _ _ => true
  | .hash32 _ _ | .hash64 _ _ | .s64Append _ _ | .s64Final _ _ => false

/-- S64_APPEND (R232). -/
def isAppend : Instr → Bool
  | .s64Append _ _ => true
  | .hash32 _ _ | .hash64 _ _ | .s64Init _ _ | .s64Final _ _ => false

/-- S64_FINAL (R236). -/
def isFinal : Instr → Bool
  | .s64Final _ _ => true
  | .hash32 _ _ | .hash64 _ _ | .s64Init _ _ | .s64Append _ _ => false

/-- One S64_APPEND for each of the byte sequences (R232). -/
def appends (chunks : List (List U8)) : List Instr := chunks.map (fun c => .s64Append 0#64 c)

end Sys2Proof.Machine
end

