-- ==== Sys2Proof/Certificates/Slice0/Obligations.lean ====
section
/-! DEFINITION. The statements of this row, for the provers. Each formalises the rules of spec/ its docstring names. -/

open Sys2Proof Sys2Proof.Machine Sys2Proof.Config

/-! ## Encoding and the port -/

/-- R95, R94: exactly the command words 0 to 4 decode, each to its instruction with the operands untouched, and every
other word is ILLEGAL (the spec's own decisions D2, D3). -/
def Obligations.DecodeIsTheOpcodeMap : Prop :=
  ∀ t : Transaction,
    (decode t = .ok (.hash32 t.seed t.data) ↔ t.cmd.toNat = 0) ∧
    (decode t = .ok (.hash64 t.seed t.data) ↔ t.cmd.toNat = 1) ∧
    (decode t = .ok (.s64Init t.seed t.data) ↔ t.cmd.toNat = 2) ∧
    (decode t = .ok (.s64Append t.seed t.data) ↔ t.cmd.toNat = 3) ∧
    (decode t = .ok (.s64Final t.seed t.data) ↔ t.cmd.toNat = 4) ∧
    ((∃ e, decode t = .error e) ↔ 5 ≤ t.cmd.toNat)

/-- Words written bit by bit from R91 (RSV = CMD[7:3], OP = CMD[2:0]) and R94 decode to what they stand for. -/
def Obligations.WrittenWordsDecode : Prop :=
  ∀ (seed : U64) (data : List U8),
    decode ⟨0b00000000#8, seed, data⟩ = .ok (.hash32 seed data) ∧
    decode ⟨0b00000001#8, seed, data⟩ = .ok (.hash64 seed data) ∧
    decode ⟨0b00000010#8, seed, data⟩ = .ok (.s64Init seed data) ∧
    decode ⟨0b00000011#8, seed, data⟩ = .ok (.s64Append seed data) ∧
    decode ⟨0b00000100#8, seed, data⟩ = .ok (.s64Final seed data) ∧
    decode ⟨0b00000101#8, seed, data⟩ = .error .reservedOpcode ∧
    decode ⟨0b00001000#8, seed, data⟩ = .error .reservedBits

/-- R90, R94: decode and encode agree both ways. Every command comes back from its transaction, and a transaction that
decodes at all is the one its command encodes to: no bit of it is dropped. -/
def Obligations.DecodeAndEncodeAgree : Prop :=
  (∀ i : Instr, decode (encode i) = .ok i) ∧ ∀ (t : Transaction) (i : Instr), decode t = .ok i → encode i = t

/-- R90, R70: when the host's next action is a command the port can carry (R12) and it decodes, the step is that
command's meaning, on the state with the action taken from the host's list and nothing else changed. The second clause
says the same of a word placed by `withFetchWord`. The host's list is the model's own (log entry 1). -/
def Obligations.StepRunsTheDecodedCommand : Prop :=
  (∀ (s : State) (t : Transaction) (rest : List HostAction) (i : Instr),
    s.port = .command t :: rest → t.data.length ≤ 2 ^ 64 - 1 → decode t = .ok i →
      step s = exec i { s with port := rest }) ∧
  ∀ (s : State) (nbits w : Nat) (i : Instr), decodeTableWord nbits w = some i → step (s.withFetchWord nbits w) = exec i s

/-- R275 (the spec's own decision D22): with nothing to do the block keeps every register. -/
def Obligations.IdleBlockKeepsEveryRegister : Prop :=
  ∀ s : State, s.port = [] → step s = .next s

/-- R96, R262: a command word with a reserved bit or opcode changes STATUS.CODE to ERR_ILLEGAL and nothing else, in every
state, whatever the operands (the spec's own decision D3). -/
def Obligations.IllegalWordOnlySetsErrIllegal : Prop :=
  ∀ (s : State) (t : Transaction) (rest : List HostAction),
    s.port = .command t :: rest → t.data.length ≤ 2 ^ 64 - 1 →
    (t.cmd.toNat / 8 ≠ 0 ∨ t.cmd.toNat % 8 = 5 ∨ t.cmd.toNat % 8 = 6 ∨ t.cmd.toNat % 8 = 7) →
      step s = .next { s with port := rest, code := .errIllegal }

/-- R92, R93: the operands a command does not use change nothing: SEED[63:32] of HASH32, DATA of S64_INIT, SEED of
S64_APPEND, SEED and DATA of S64_FINAL. -/
def Obligations.UnusedOperandsAreIgnored : Prop :=
  ∀ (s : State) (seed seed' : U64) (data data' : List U8),
    (seed.toNat % 2 ^ 32 = seed'.toNat % 2 ^ 32 → exec (.hash32 seed data) s = exec (.hash32 seed' data) s) ∧
    exec (.s64Init seed data) s = exec (.s64Init seed data') s ∧
    exec (.s64Append seed data) s = exec (.s64Append seed' data) s ∧
    exec (.s64Final seed data) s = exec (.s64Final seed' data') s

/-- R99, R100: the pseudo-instructions assemble to the commands they stand for, and a seed literal too wide for its
command is refused. -/
def Obligations.PseudoInstructionsExpand : Prop :=
  ∀ (data : List U8) (seed : Nat),
    (Pseudo.hash32 data).expand = .hash32 0 data ∧
    (Pseudo.hash32Seeded data seed).expand = .hash32 seed data ∧
    (Pseudo.hash64 data).expand = .hash64 0 data ∧
    (Pseudo.hash64Seeded data seed).expand = .hash64 seed data ∧
    Pseudo.s64New.expand = .s64Init 0 ∧
    (Pseudo.s64NewSeeded seed).expand = .s64Init seed ∧
    (seed < 2 ^ 32 → assemble (.hash32 seed data) = .ok ⟨0x00#8, BitVec.ofNat 64 seed, data⟩) ∧
    (2 ^ 32 ≤ seed → assemble (.hash32 seed data) = .error .seedTooWide) ∧
    (seed < 2 ^ 64 → assemble (.hash64 seed data) = .ok ⟨0x01#8, BitVec.ofNat 64 seed, data⟩ ∧
      assemble (.s64Init seed) = .ok ⟨0x02#8, BitVec.ofNat 64 seed, []⟩) ∧
    (2 ^ 64 ≤ seed → assemble (.hash64 seed data) = .error .seedTooWide ∧
      assemble (.s64Init seed) = .error .seedTooWide) ∧
    assemble (.s64Append data) = .ok ⟨0x03#8, 0#64, data⟩ ∧
    assemble .s64Final = .ok ⟨0x04#8, 0#64, []⟩

/-! ## Reset -/

/-- R51: after reset STATUS is 0, SV and FV are 0, and every other register and every byte of S_BUF has no value. In any
state a read of what holds no value is a model fault; and every list of commands run from reset completes, so no rule reads
such state before a command writes it (the spec's own decision D10). -/
def Obligations.ResetHoldsTheSpecValues : Prop :=
  (State.reset.code = .ok ∧ State.reset.sv = false ∧ State.reset.fv = false ∧ statusWord State.reset = 0#8) ∧
  (State.reset.result = none ∧ State.reset.sSeed = none ∧ State.reset.sV = none ∧
    (∀ off, State.reset.sBuf.read off = none) ∧ State.reset.sBufLen = none ∧ State.reset.sTotal = none ∧
    State.reset.e32 = none ∧ State.reset.e64 = none) ∧
  (∀ s : State,
    (s.result = none → hostReadResult s = .fault (.noValue .result)) ∧
    (s.sSeed = none → readSeed s = .error (.noValue .sSeed)) ∧
    (s.sV = none → readV s = .error (.noValue .sV)) ∧
    (s.sBufLen = none → readBufLen s = .error (.noValue .sBufLen)) ∧
    (s.sTotal = none → readTotal s = .error (.noValue .sTotal)) ∧
    (s.e32 = none → readE32 s = .error (.noValue .e32)) ∧
    (s.e64 = none → readE64 s = .error (.noValue .e64)) ∧
    ∀ off, off < 32 → s.sBuf.read off = none → (ByteSpace.buf s.sBuf).byteAt off = .error (.noValue .sBuf)) ∧
  ∀ is : List Instr, ∃ t, execAll is State.reset = .next t

/-- R290 (the spec's own decisions D10, D25): when the host asserts reset, every register of the block is at its reset
value, whatever it held before. The
host's own record, the model's `port` and `hostRead`, stays (log entry 10). -/
def Obligations.HostResetRestoresTheResetState : Prop :=
  ∀ (s : State) (rest : List HostAction), s.port = .reset :: rest →
    step s = .next { State.reset with port := rest, hostRead := s.hostRead }

/-! ## The host-visible registers -/

/-- R34, R35: STATUS[2:0] is CODE with the numbers of R35, [3] is SV, [4] is FV, [7:5] is 0. -/
def Obligations.StatusShowsCodeAndStreamBits : Prop :=
  ∀ s : State,
    (statusWord s).toNat % 8 =
      (match s.code with | .ok => 0 | .errIllegal => 1 | .errNoStream => 2 | .errLength => 3) ∧
    (statusWord s).getLsbD 3 = s.sv ∧ (statusWord s).getLsbD 4 = s.fv ∧ (statusWord s).toNat / 32 = 0

/-- R33, R34, R65, R276 (a): a host read of STATUS, of RESULT, or of RESULT's bytes in either layout returns the register
and changes nothing of the block; a read of RESULT that holds no value is the model fault that names it. What a read
returned is kept in the model's own `hostRead` (log entry 8), and the layout is an argument of the read (log entry 9). -/
def Obligations.HostReadsReturnTheRegister : Prop :=
  ∀ (s : State) (rest : List HostAction),
    (s.port = .readStatus :: rest →
      step s = .next { s with port := rest, hostRead := some (.status (statusWord s)) }) ∧
    (∀ v, s.result = some v → s.port = .readResult :: rest →
      step s = .next { s with port := rest, hostRead := some (.result v) }) ∧
    (∀ (v : U64) (l : ByteLayout), s.result = some v → s.port = .readResultBytes l :: rest →
      step s = .next { s with port := rest, hostRead := some (.resultBytes (resultBytes l v)) }) ∧
    (s.result = none → (s.port = .readResult :: rest ∨ ∃ l, s.port = .readResultBytes l :: rest) →
      step s = .fault (.noValue .result))

/-- R65, D26: the bytes a byte-wide bus shows are the number RESULT in the platform's layout, and the two layouts are each
other's reverse. The layout is an argument of the read (log entry 9). -/
def Obligations.ResultBytesSpellTheNumber : Prop :=
  ∀ v : U64, (resultBytes .little v).length = 8 ∧ leNat (resultBytes .little v) = v.toNat ∧
    resultBytes .big v = (resultBytes .little v).reverse

/-! ## The byte spaces -/

/-- R62: a read returns `S[off] + S[off+1]*2^8 + ...`, in IN and in BUF alike. -/
def Obligations.ReadsAreLittleEndian : Prop :=
  (∀ (data : List U8) (off n : Nat), off + n ≤ data.length →
    memRead (.input data) off n =
      .ok ((List.range n).map fun i => (data.getD (off + i) 0#8).toNat * 2 ^ (8 * i)).sum) ∧
  ∀ (m : Memory) (bs : List U8) (off n : Nat), m.Holds bs → bs.length ≤ 32 → off + n ≤ bs.length →
    memRead (.buf m) off n = .ok ((List.range n).map fun i => (bs.getD (off + i) 0#8).toNat * 2 ^ (8 * i)).sum

/-- R63: a 4-byte read is bits [31:0] of the 8-byte read at the same offset, byte k of it is bits [8k+7:8k], and a lane of
any width may be read at any offset in range. -/
def Obligations.NarrowReadsAreBitsOfWideReads : Prop :=
  (∀ (S : ByteSpace) (off v : Nat), memRead S off 8 = .ok v →
    memRead S off 4 = .ok (v % 2 ^ 32) ∧ ∀ k, k < 8 → memRead S (off + k) 1 = .ok (v / 2 ^ (8 * k) % 2 ^ 8)) ∧
  ∀ (data : List U8) (off n : Nat), off + n ≤ data.length → ∃ v, memRead (.input data) off n = .ok v

/-- R64, R276 (b): a read that passes the end of its byte space is a model fault and never a value. -/
def Obligations.OutOfRangeReadFaults : Prop :=
  ∀ (S : ByteSpace) (off n : Nat), S.size < off + n → memRead S off n = .error .readOutOfRange

/-- R18, R61, R276 (c): a byte written below 32 reads back, every other offset keeps its byte, and the canonical form
stays; a write at 32 or more is a model fault. The canonical form is the model's (log entry 4). -/
def Obligations.BufWriteReadsBack : Prop :=
  ∀ (m : Memory) (off : Nat) (b : U8),
    (off < 32 → ∃ m', memWrite m off b = .ok m' ∧ m'.read off = some b ∧ (∀ x, x ≠ off → m'.read x = m.read x) ∧
      (m.wf → m'.wf)) ∧
    (32 ≤ off → memWrite m off b = .error .bufWriteOutOfRange)

/-- R222: consume copies min(available(), |B|) bytes to S_BUF from S_BUFLEN on, advances S_BUFLEN by as many, returns the
unconsumed suffix, and writes nothing else: on a full buffer it copies nothing and returns all of B. -/
def Obligations.ConsumeCopiesWhatFits : Prop :=
  ∀ (s : State) (n : Nat) (B : List U8), s.sBufLen = some (BitVec.ofNat 6 n) → n ≤ 32 →
    ∃ m, consume B s = .ok (min (32 - n) B.length, B.drop (min (32 - n) B.length),
        { s with sBuf := m, sBufLen := some (BitVec.ofNat 6 (n + min (32 - n) B.length)) }) ∧
      ∀ x, m.read x = if n ≤ x ∧ x < n + min (32 - n) B.length then B[x - n]? else s.sBuf.read x

/-! ## The datapath units -/

/-- R124 to R129: the round, merge, seeding and converge units are the formulas of the spec, with the primes of R15 and
the rotations of R9, every operation modulo 2^32 or 2^64. The primes and the formulas of R126, R127 and R129 are the
spec's general knowledge (log entry 15). -/
def Obligations.MixingUnitsAreTheirFormulas : Prop :=
  (∀ acc lane : U32, round32 acc lane = (acc + lane * 0x85EBCA77#32).rotateLeft 13 * 0x9E3779B1#32) ∧
  (∀ acc lane : U64,
    round64 acc lane = (acc + lane * 0xC2B2AE3D27D4EB4F#64).rotateLeft 31 * 0x9E3779B185EBCA87#64) ∧
  (∀ acc val : U64, merge64 acc val =
    (acc ^^^ (val * 0xC2B2AE3D27D4EB4F#64).rotateLeft 31 * 0x9E3779B185EBCA87#64) * 0x9E3779B185EBCA87#64 +
      0x85EBCA77C2B2AE63#64) ∧
  (∀ seed : U32, init32 seed =
    ⟨seed + 0x9E3779B1#32 + 0x85EBCA77#32, seed + 0x85EBCA77#32, seed, seed - 0x9E3779B1#32⟩) ∧
  (∀ seed : U64, init64 seed =
    ⟨seed + 0x9E3779B185EBCA87#64 + 0xC2B2AE3D27D4EB4F#64, seed + 0xC2B2AE3D27D4EB4F#64, seed,
      seed - 0x9E3779B185EBCA87#64⟩) ∧
  (∀ v : Quad 32, converge32 v =
    v.v1.rotateLeft 1 + v.v2.rotateLeft 7 + v.v3.rotateLeft 12 + v.v4.rotateLeft 18) ∧
  ∀ v : Quad 64, converge64 v = [v.v1, v.v2, v.v3, v.v4].foldl merge64
    (v.v1.rotateLeft 1 + v.v2.rotateLeft 7 + v.v3.rotateLeft 12 + v.v4.rotateLeft 18)

/-- R130 to R136: the avalanches (three xor-shifts and two multiplies) and the tail steps are the formulas of the
spec, which marks them and the primes as general knowledge (log entry 15). -/
def Obligations.FinishingUnitsAreTheirFormulas : Prop :=
  (∀ h : U32, avalanche32 h =
    (let a := (h ^^^ h >>> 15) * 0x85EBCA77#32
     let b := (a ^^^ a >>> 13) * 0xC2B2AE3D#32
     b ^^^ b >>> 16)) ∧
  (∀ h : U64, avalanche64 h =
    (let a := (h ^^^ h >>> 33) * 0xC2B2AE3D27D4EB4F#64
     let b := (a ^^^ a >>> 29) * 0x165667B19E3779F9#64
     b ^^^ b >>> 32)) ∧
  (∀ h lane : U32, t4_32 h lane = (h + lane * 0xC2B2AE3D#32).rotateLeft 17 * 0x27D4EB2F#32) ∧
  (∀ (h : U32) (b : U8), t1_32 h b = (h + b.setWidth 32 * 0x165667B1#32).rotateLeft 11 * 0x9E3779B1#32) ∧
  (∀ h lane : U64, t8_64 h lane =
    (h ^^^ (lane * 0xC2B2AE3D27D4EB4F#64).rotateLeft 31 * 0x9E3779B185EBCA87#64).rotateLeft 27 *
      0x9E3779B185EBCA87#64 + 0x85EBCA77C2B2AE63#64) ∧
  (∀ (h : U64) (lane : U32), t4_64 h lane =
    (h ^^^ lane.setWidth 64 * 0x9E3779B185EBCA87#64).rotateLeft 23 * 0xC2B2AE3D27D4EB4F#64 +
      0x165667B19E3779F9#64) ∧
  ∀ (h : U64) (b : U8), t1_64 h b =
    (h ^^^ b.setWidth 64 * 0x27D4EB2F165667C5#64).rotateLeft 11 * 0x9E3779B185EBCA87#64

/-! ## HASH32 -/

/-- R160: HASH32 completes in every state; it writes the zero-extended XXH32 of DATA under SEED[31:0] to RESULT and OK to
STATUS.CODE, leaves no engine register with a value (R46), and changes nothing else. -/
def Obligations.Hash32WritesXxh32 : Prop :=
  ∀ (seed : U64) (data : List U8) (s : State),
    exec (.hash32 seed data) s =
      .next { s with result := some ((xxh32 (seed.extractLsb' 0 32) data).setWidth 64), code := .ok, e32 := none }

/-- R161 to R164: the long path exactly when n ≥ 16, with n div 16 stripes and the last n mod 16 bytes as the tail; else
the short one, with seed + P32_5 (R15, log entry 15) and all n bytes as the tail; the length modulo 2^32 is added on
both. -/
def Obligations.Hash32PathStripesAndLength : Prop :=
  ∀ (seed : U64) (data : List U8) (s : State), ∃ t, exec (.hash32 seed data) s = .next t ∧
    (data.length < 16 → t.result = some ((avalanche32 (hashTail32
      (seed.extractLsb' 0 32 + 0x165667B1#32 + BitVec.ofNat 32 (data.length % 2 ^ 32)) data)).setWidth 64)) ∧
    (16 ≤ data.length → t.result = some ((avalanche32 (hashTail32
      (converge32 (stripes32Of (data.length / 16) (init32 (seed.extractLsb' 0 32)) data) +
        BitVec.ofNat 32 (data.length % 2 ^ 32))
      (data.drop (16 * (data.length / 16))))).setWidth 64))

/-- R165: HASH32 of the empty input, and its value under seed 0. P32_5 is R15's (log entry 15). -/
def Obligations.Hash32OfTheEmptyInput : Prop :=
  (∀ (seed : U64) (s : State), ∃ t, exec (.hash32 seed []) s = .next t ∧
    t.result = some ((avalanche32 (seed.extractLsb' 0 32 + 0x165667B1#32)).setWidth 64)) ∧
  ∀ s : State, ∃ t, exec (.hash32 0#64 []) s = .next t ∧ t.result = some 0x02CC5D05#64

/-- R166: the result of HASH32 depends on seed32 and DATA alone, not on SEED[63:32] and not on any state. -/
def Obligations.Hash32DependsOnItsOperandsAlone : Prop :=
  ∀ (seed seed' : U64) (data : List U8) (s s' : State), seed.toNat % 2 ^ 32 = seed'.toNat % 2 ^ 32 →
    ∃ t t', exec (.hash32 seed data) s = .next t ∧ exec (.hash32 seed' data) s' = .next t' ∧ t.result = t'.result ∧
      t.result ≠ none

/-! ## HASH64 -/

/-- R190: HASH64 completes in every state; it writes the XXH64 of DATA under SEED to RESULT and OK to STATUS.CODE, leaves
no engine register with a value (R47), and changes nothing else. -/
def Obligations.Hash64WritesXxh64 : Prop :=
  ∀ (seed : U64) (data : List U8) (s : State),
    exec (.hash64 seed data) s = .next { s with result := some (xxh64 seed data), code := .ok, e64 := none }

/-- R191 to R194: the long path exactly when n ≥ 32, with n div 32 stripes, the merge rounds of converge64 before the
length term, and the last n mod 32 bytes as the tail; else the short one, with seed + P64_5 and all n bytes; the length is
added on both, and the tail is t div 8 8-byte steps, one 4-byte step if t mod 8 ≥ 4, then (t mod 8) mod 4 byte steps. -/
def Obligations.Hash64PathStripesAndLength : Prop :=
  (∀ (seed : U64) (data : List U8) (s : State), ∃ t, exec (.hash64 seed data) s = .next t ∧
    (data.length < 32 → t.result = some (avalanche64 (hashTail64
      (seed + 0x27D4EB2F165667C5#64 + BitVec.ofNat 64 data.length) data))) ∧
    (32 ≤ data.length → t.result = some (avalanche64 (hashTail64
      (converge64 (stripes64Of (data.length / 32) (init64 seed) data) + BitVec.ofNat 64 data.length)
      (data.drop (32 * (data.length / 32))))))) ∧
  ∀ (h : U64) (tail : List U8),
    (tail.length % 8 < 4 → hashTail64 h tail = (tail.drop (8 * (tail.length / 8))).foldl t1_64
      (overChunks 8 (fun x c => t8_64 x (laneOf 64 8 c)) (tail.length / 8) h tail)) ∧
    (4 ≤ tail.length % 8 → hashTail64 h tail = (tail.drop (8 * (tail.length / 8) + 4)).foldl t1_64
      (t4_64 (overChunks 8 (fun x c => t8_64 x (laneOf 64 8 c)) (tail.length / 8) h tail)
        (laneOf 32 4 (tail.drop (8 * (tail.length / 8))))))

/-- R195: HASH64 of the empty input, and its value under seed 0. P64_5 is R15's (log entry 15). -/
def Obligations.Hash64OfTheEmptyInput : Prop :=
  (∀ (seed : U64) (s : State), ∃ t, exec (.hash64 seed []) s = .next t ∧
    t.result = some (avalanche64 (seed + 0x27D4EB2F165667C5#64))) ∧
  ∀ s : State, ∃ t, exec (.hash64 0#64 []) s = .next t ∧ t.result = some 0xEF46DB3751D8E999#64

/-- R196: the result of HASH64 depends on SEED and DATA alone, not on any state. -/
def Obligations.Hash64DependsOnItsOperandsAlone : Prop :=
  ∀ (seed : U64) (data : List U8) (s s' : State),
    ∃ t t', exec (.hash64 seed data) s = .next t ∧ exec (.hash64 seed data) s' = .next t' ∧ t.result = t'.result ∧
      t.result ≠ none

/-! ## The stream commands -/

/-- R228: S64_INIT completes in every state and does exactly its writes: S_SEED, the four accumulators of R127, S_BUFLEN
and S_TOTAL 0, SV 1, FV 0, CODE OK; S_BUF, RESULT and all else are unchanged. The constants are R15's (log entry 15). -/
def Obligations.InitStartsTheStream : Prop :=
  ∀ (seed : U64) (data : List U8) (s : State),
    exec (.s64Init seed data) s = .next
      { s with
        sSeed := some seed
        sV := some ⟨seed + 0x9E3779B185EBCA87#64 + 0xC2B2AE3D27D4EB4F#64, seed + 0xC2B2AE3D27D4EB4F#64, seed,
          seed - 0x9E3779B185EBCA87#64⟩
        sBufLen := some 0#6
        sTotal := some 0#64
        sv := true
        fv := false
        code := .ok }

/-- R229: S64_INIT over a live stream leaves what reset and then S64_INIT with the same seed leave, except for RESULT and
the stale bytes of S_BUF (the spec's own decision D14). -/
def Obligations.InitAbandonsTheLiveStream : Prop :=
  ∀ (s : State) (seed : U64) (data : List U8), Inv s → s.sv = true →
    ∃ t u, exec (.s64Init seed data) s = .next t ∧ exec (.s64Init seed data) (hostReset s) = .next u ∧
      t = { u with result := s.result, sBuf := s.sBuf }

/-- R263: with SV = 0, S64_APPEND and S64_FINAL change STATUS.CODE to ERR_NO_STREAM and nothing else, whatever the length
of DATA; and SV is 0 from reset until the first S64_INIT (the spec's own decision D12). -/
def Obligations.StreamCommandsNeedAStream : Prop :=
  (∀ (s : State) (seed : U64) (data : List U8), s.sv = false →
    exec (.s64Append seed data) s = .next { s with code := .errNoStream } ∧
    exec (.s64Final seed data) s = .next { s with code := .errNoStream }) ∧
  State.reset.sv = false ∧
  ∀ (i : Instr) (s t : State), exec i s = .next t → s.sv = false → (t.sv = true ↔ isInit i = true)

/-- R265: an append that would carry S_TOTAL past 2^64 − 1, compared exactly, changes STATUS.CODE to ERR_LENGTH and
nothing else (the spec's own decision D13). -/
def Obligations.AppendPastTheLimitIsRefused : Prop :=
  ∀ (s : State) (seed total : U64) (data : List U8), s.sv = true → s.sTotal = some total →
    total.toNat + data.length > 2 ^ 64 - 1 →
      exec (.s64Append seed data) s = .next { s with code := .errLength }

/-- R264 (the spec's own decision D9): a command that ends with an error code, of the three, makes no change except
STATUS.CODE. -/
def Obligations.ErrorsAreAllOrNothing : Prop :=
  ∀ (c : Transaction) (s t : State), runCommand c s = .next t → t.code ≠ .ok → t = { s with code := t.code }

/-- R261, R266: the completion code of every command in every state a run reaches: ERR_ILLEGAL first, then ERR_NO_STREAM,
then ERR_LENGTH, else OK (the spec's own decisions D7, D8, D10). -/
def Obligations.CompletionCodeByPriority : Prop :=
  ∀ (c : Transaction) (s : State), Inv s → c.data.length ≤ 2 ^ 64 - 1 → ∃ t, runCommand c s = .next t ∧
    t.code =
      if c.cmd.toNat / 8 ≠ 0 ∨ 5 ≤ c.cmd.toNat % 8 then .errIllegal
      else if (c.cmd.toNat = 3 ∨ c.cmd.toNat = 4) ∧ s.sv = false then .errNoStream
      else if c.cmd.toNat = 3 ∧ (s.sTotal.getD 0#64).toNat + c.data.length > 2 ^ 64 - 1 then .errLength
      else .ok

/-- R231, R232, R226, R222: on a live stream with room, S64_APPEND completes. S_TOTAL grows by exactly |DATA| and does not
wrap; the accumulators take one stripe for each of the ((S_TOTAL mod 32) + n) div 32 chunks, over the bytes held and then
DATA; S_BUFLEN is what is left over, and BUF holds those bytes; every absorbed byte is stored at its place in the 32-byte
cycle, and every other offset of BUF reads as before; FV is 0, CODE is OK, and nothing else changes. -/
def Obligations.AppendAbsorbsItsData : Prop :=
  ∀ (s : State) (seed total : U64) (v : Quad 64) (held data : List U8),
    s.sv = true → LiveAt s v total held → total.toNat + data.length ≤ 2 ^ 64 - 1 →
    ∃ m, exec (.s64Append seed data) s = .next
        { s with
          sV := some (stripes64Of ((held.length + data.length) / 32) v (held ++ data))
          sTotal := some (total + BitVec.ofNat 64 data.length)
          sBufLen := some (BitVec.ofNat 6 ((held.length + data.length) % 32))
          sBuf := m
          fv := false
          code := .ok } ∧
      (total + BitVec.ofNat 64 data.length).toNat = total.toNat + data.length ∧
      m.Holds ((held ++ data).drop (32 * ((held.length + data.length) / 32))) ∧
      BufAbsorbs s.sBuf m held.length data ∧
      (s.sBuf.wf → m.wf)

/-- R233: an append of zero bytes to a stream only clears FV (the spec's own decision D15) and reports OK. -/
def Obligations.EmptyAppendOnlyClearsFv : Prop :=
  ∀ (s : State) (seed total : U64), s.sv = true → s.sTotal = some total →
    exec (.s64Append seed []) s = .next { s with fv := false, code := .ok }

/-- R236, R238, R239: on a live stream S64_FINAL completes. RESULT is the avalanche of the tail over the bytes held, from
converge64 of the accumulators when S_TOTAL ≥ 32 and from S_SEED + P64_5 otherwise, plus the full S_TOTAL; FV is 1, CODE
is OK, and nothing else changes. -/
def Obligations.FinalHashesTheStreamRegisters : Prop :=
  ∀ (s : State) (x seed total : U64) (v : Quad 64) (held data : List U8),
    s.sv = true → s.sSeed = some seed → LiveAt s v total held →
    exec (.s64Final x data) s = .next
      { s with
        result := some (avalanche64 (hashTail64
          ((if 32 ≤ total.toNat then converge64 v else seed + 0x27D4EB2F165667C5#64) + total) held))
        fv := true
        code := .ok }

/-- R237: S64_FINAL writes no stream register but FV, and a second one, with no S64_APPEND or S64_INIT between, writes the
same RESULT, whatever hashes ran between. -/
def Obligations.FinalIsRepeatable : Prop :=
  ∀ (s : State) (x y : U64) (a b : List U8) (is : List Instr), Inv s → s.sv = true →
    (∀ i ∈ is, isInit i = false ∧ isAppend i = false) →
    ∃ t u w, exec (.s64Final x a) s = .next t ∧ execAll is t = .next u ∧ exec (.s64Final y b) u = .next w ∧
      w.result = t.result ∧ t.result ≠ none ∧
      (t.sSeed = s.sSeed ∧ t.sV = s.sV ∧ t.sBuf = s.sBuf ∧ t.sBufLen = s.sBufLen ∧ t.sTotal = s.sTotal ∧
        t.sv = s.sv) ∧
      (w.sSeed = s.sSeed ∧ w.sV = s.sV ∧ w.sBuf = s.sBuf ∧ w.sBufLen = s.sBufLen ∧ w.sTotal = s.sTotal ∧
        w.sv = s.sv)

/-- R234: an append after S64_FINAL continues the stream: it leaves what it would have left without the S64_FINAL, except
that RESULT is the S64_FINAL's. -/
def Obligations.AppendAfterFinalContinues : Prop :=
  ∀ (s : State) (x y total : U64) (a data : List U8), Inv s → s.sv = true → s.sTotal = some total →
    total.toNat + data.length ≤ 2 ^ 64 - 1 →
    ∃ t u w, exec (.s64Final x a) s = .next t ∧ exec (.s64Append y data) t = .next u ∧
      exec (.s64Append y data) s = .next w ∧ u = { w with result := t.result }

/-- R235: a successful append to a stream that has absorbed `bs` leaves one that has absorbed `bs ++ data`. -/
def Obligations.AppendExtendsTheAbsorbedBytes : Prop :=
  ∀ (s : State) (seed x : U64) (bs data : List U8), Absorbed s seed bs → bs.length + data.length ≤ 2 ^ 64 - 1 →
    ∃ t, exec (.s64Append x data) s = .next t ∧ Absorbed t seed (bs ++ data) ∧ t.code = .ok

/-- R235, R236: S64_FINAL of a stream that has absorbed `bs` under `seed` writes XXH64 of `bs` under `seed`. -/
def Obligations.FinalIsXxh64OfTheAbsorbedBytes : Prop :=
  ∀ (s : State) (seed x : U64) (bs data : List U8), Absorbed s seed bs →
    exec (.s64Final x data) s = .next { s with result := some (xxh64 seed bs), fv := true, code := .ok }

/-- R235: the state after S64_INIT and any appends is the one of R45 for the concatenation, and it depends on nothing but
the concatenation: any other way of cutting the bytes leaves the same state, S_BUF's stale bytes included. The premise is
that BUF is in the model's canonical form (log entry 4). -/
def Obligations.PartitionIndependence : Prop :=
  ∀ (s : State) (seed : U64) (data : List U8) (chunks chunks' : List (List U8)),
    s.sBuf.wf → chunks.flatten = chunks'.flatten → chunks.flatten.length ≤ 2 ^ 64 - 1 →
    ∃ t, execAll (.s64Init seed data :: appends chunks) s = .next t ∧
      execAll (.s64Init seed data :: appends chunks') s = .next t ∧
      Absorbed t seed chunks.flatten

/-- R240, the central property of the block: from any state, after S64_INIT(seed) and any commands that append bytes
(hashes and S64_FINALs among them change nothing), S64_FINAL writes the RESULT that HASH64 writes for SEED = seed and
DATA = the concatenation of the bytes appended, however they were cut. -/
def Obligations.StreamEqualsOneShot : Prop :=
  ∀ (s s' : State) (seed x : U64) (a b : List U8) (is : List Instr),
    (∀ i ∈ is, isInit i = false) → (appendedBytes is).length ≤ 2 ^ 64 - 1 →
    ∃ t u w, execAll (.s64Init seed a :: is) s = .next t ∧ exec (.s64Final x b) t = .next u ∧
      exec (.hash64 seed (appendedBytes is)) s' = .next w ∧ u.code = .ok ∧ w.code = .ok ∧ u.result = w.result ∧
      u.result ≠ none

/-! ## Rules over all commands -/

/-- R37, R38, R39: what each command does to (SV, FV): an error leaves them; S64_INIT and S64_APPEND go to (1, 0),
S64_FINAL to (1, 1), the hashes leave them; S64_APPEND and S64_FINAL succeed only with SV = 1. -/
def Obligations.StreamStateMachine : Prop :=
  ∀ (i : Instr) (s t : State), exec i s = .next t →
    (t.code ≠ .ok → t.sv = s.sv ∧ t.fv = s.fv) ∧
    (t.code = .ok →
      match i with
      | .s64Init _ _ => t.sv = true ∧ t.fv = false
      | .s64Append _ _ => s.sv = true ∧ t.sv = true ∧ t.fv = false
      | .s64Final _ _ => s.sv = true ∧ t.sv = true ∧ t.fv = true
      | .hash32 _ _ => t.sv = s.sv ∧ t.fv = s.fv
      | .hash64 _ _ => t.sv = s.sv ∧ t.fv = s.fv)

/-- R33: RESULT changes only by a HASH32, HASH64 or S64_FINAL that succeeds, and such a command leaves it with a value. -/
def Obligations.OnlySuccessfulHashesWriteResult : Prop :=
  ∀ (i : Instr) (s t : State), exec i s = .next t →
    (t.code ≠ .ok ∨ isInit i = true ∨ isAppend i = true → t.result = s.result) ∧
    (t.code = .ok ∧ isInit i = false ∧ isAppend i = false → t.result ≠ none)

/-- R230: S_SEED is written only by S64_INIT, and S64_APPEND and S64_FINAL never read SEED. -/
def Obligations.OnlyInitWritesTheSeed : Prop :=
  (∀ (i : Instr) (s t : State), exec i s = .next t → isInit i = false → t.sSeed = s.sSeed) ∧
  ∀ (s : State) (x y : U64) (data : List U8),
    exec (.s64Append x data) s = exec (.s64Append y data) s ∧ exec (.s64Final x data) s = exec (.s64Final y data) s

/-- The frame of every command in every state (R30, R40 to R44, R66, R160, R190, R228, R232, R236): the registers its rule
does not name keep what they held, and every byte of BUF reads as before unless the command is S64_APPEND. The model's
host record is no command's to change (log entries 1 and 8). -/
def Obligations.CommandsKeepWhatTheyDoNotName : Prop :=
  ∀ (i : Instr) (s t : State), exec i s = .next t →
    t.port = s.port ∧ t.hostRead = s.hostRead ∧
    (isInit i = false → t.sSeed = s.sSeed ∧ t.sv = s.sv) ∧
    (isInit i = false → isAppend i = false → t.sV = s.sV ∧ t.sBufLen = s.sBufLen ∧ t.sTotal = s.sTotal) ∧
    (isAppend i = false → t.sBuf = s.sBuf ∧ ∀ x, t.sBuf.read x = s.sBuf.read x) ∧
    (isInit i = false → isAppend i = false → isFinal i = false → t.fv = s.fv) ∧
    (isInit i = true ∨ isAppend i = true → t.result = s.result) ∧
    (isHash32 i = false → t.e32 = s.e32) ∧
    (isHash64 i = false → t.e64 = s.e64)

/-! ## The whole machine -/

/-- R45, R51: the reset state is a good one. -/
def Obligations.ResetMeetsTheInvariant : Prop := HistoryInv State.reset

/-- R37, R39, R43, R45, R46, R47, R51: every step, whatever the host does, keeps the invariant: BUF canonical, S_BUFLEN =
S_TOTAL mod 32 and every byte below it held while SV = 1, no stream register with a value while SV = 0, (SV, FV) never
(0, 1), no engine register with a value between commands. -/
def Obligations.StepKeepsTheInvariant : Prop :=
  ∀ s t : State, Inv s → step s = .next t → Inv t

/-- R45: between commands, while SV = 1, the stream registers are those of one seed and one absorbed byte sequence:
S_BUFLEN = S_TOTAL mod 32, S_BUF[0..S_BUFLEN) its last bytes, S_V1 to S_V4 its accumulators. Every step keeps this. -/
def Obligations.StepKeepsTheStreamHistory : Prop :=
  ∀ s t : State, HistoryInv s → step s = .next t → HistoryInv t

/-- R276, R64, R225, R227: from a good state the only model fault is the host's read of a RESULT that holds no value. No
command faults: no lane read out of range, no write past the buffer, no stale byte, no consume on a full buffer. -/
def Obligations.OnlyTheHostReadOfResultFaults : Prop :=
  ∀ (s : State) (f : Fault), Inv s → step s = .fault f →
    f = .noValue .result ∧ s.result = none ∧
      ∃ rest, s.port = .readResult :: rest ∨ ∃ l, s.port = .readResultBytes l :: rest

/-- R12, R97: no command is ever refused: the step refuses exactly a transaction with more than 2^64 − 1 bytes of DATA,
which the port cannot carry (the model's choice of how to say so, log entry 7). -/
def Obligations.OnlyOverlongDataIsRefused : Prop :=
  ∀ (s : State) (r : Refusal), step s = .refused r ↔
    r = .dataTooLong ∧ ∃ c rest, s.port = .command c :: rest ∧ 2 ^ 64 - 1 < c.data.length

/-- R276, R293: from a good state, if the host does what the interface allows, the step is a next state. -/
def Obligations.AllowedActionsProgress : Prop :=
  ∀ s : State, Inv s → (∀ a rest, s.port = a :: rest → ActionAllowed s a) → Progresses s
end

