-- ==== Sys2Proof/Laws/State.lean ====
section
/-! SUPPORT. One lemma per field per register write: what it holds after the write. -/

namespace Sys2Proof.Machine

variable (s : State)

@[simp] theorem State.writeResult_result (v : U64) : (s.writeResult v).result = some v := rfl
@[simp] theorem State.writeResult_code (v : U64) : (s.writeResult v).code = s.code := rfl
@[simp] theorem State.writeResult_sv (v : U64) : (s.writeResult v).sv = s.sv := rfl
@[simp] theorem State.writeResult_fv (v : U64) : (s.writeResult v).fv = s.fv := rfl
@[simp] theorem State.writeResult_sSeed (v : U64) : (s.writeResult v).sSeed = s.sSeed := rfl
@[simp] theorem State.writeResult_sV (v : U64) : (s.writeResult v).sV = s.sV := rfl
@[simp] theorem State.writeResult_sBuf (v : U64) : (s.writeResult v).sBuf = s.sBuf := rfl
@[simp] theorem State.writeResult_sBufLen (v : U64) : (s.writeResult v).sBufLen = s.sBufLen := rfl
@[simp] theorem State.writeResult_sTotal (v : U64) : (s.writeResult v).sTotal = s.sTotal := rfl
@[simp] theorem State.writeResult_e32 (v : U64) : (s.writeResult v).e32 = s.e32 := rfl
@[simp] theorem State.writeResult_e64 (v : U64) : (s.writeResult v).e64 = s.e64 := rfl
@[simp] theorem State.writeResult_port (v : U64) : (s.writeResult v).port = s.port := rfl
@[simp] theorem State.writeResult_hostRead (v : U64) : (s.writeResult v).hostRead = s.hostRead := rfl

@[simp] theorem State.writeCode_result (c : Code) : (s.writeCode c).result = s.result := rfl
@[simp] theorem State.writeCode_code (c : Code) : (s.writeCode c).code = c := rfl
@[simp] theorem State.writeCode_sv (c : Code) : (s.writeCode c).sv = s.sv := rfl
@[simp] theorem State.writeCode_fv (c : Code) : (s.writeCode c).fv = s.fv := rfl
@[simp] theorem State.writeCode_sSeed (c : Code) : (s.writeCode c).sSeed = s.sSeed := rfl
@[simp] theorem State.writeCode_sV (c : Code) : (s.writeCode c).sV = s.sV := rfl
@[simp] theorem State.writeCode_sBuf (c : Code) : (s.writeCode c).sBuf = s.sBuf := rfl
@[simp] theorem State.writeCode_sBufLen (c : Code) : (s.writeCode c).sBufLen = s.sBufLen := rfl
@[simp] theorem State.writeCode_sTotal (c : Code) : (s.writeCode c).sTotal = s.sTotal := rfl
@[simp] theorem State.writeCode_e32 (c : Code) : (s.writeCode c).e32 = s.e32 := rfl
@[simp] theorem State.writeCode_e64 (c : Code) : (s.writeCode c).e64 = s.e64 := rfl
@[simp] theorem State.writeCode_port (c : Code) : (s.writeCode c).port = s.port := rfl
@[simp] theorem State.writeCode_hostRead (c : Code) : (s.writeCode c).hostRead = s.hostRead := rfl

@[simp] theorem State.writeSv_result (b : Bool) : (s.writeSv b).result = s.result := rfl
@[simp] theorem State.writeSv_code (b : Bool) : (s.writeSv b).code = s.code := rfl
@[simp] theorem State.writeSv_sv (b : Bool) : (s.writeSv b).sv = b := rfl
@[simp] theorem State.writeSv_fv (b : Bool) : (s.writeSv b).fv = s.fv := rfl
@[simp] theorem State.writeSv_sSeed (b : Bool) : (s.writeSv b).sSeed = s.sSeed := rfl
@[simp] theorem State.writeSv_sV (b : Bool) : (s.writeSv b).sV = s.sV := rfl
@[simp] theorem State.writeSv_sBuf (b : Bool) : (s.writeSv b).sBuf = s.sBuf := rfl
@[simp] theorem State.writeSv_sBufLen (b : Bool) : (s.writeSv b).sBufLen = s.sBufLen := rfl
@[simp] theorem State.writeSv_sTotal (b : Bool) : (s.writeSv b).sTotal = s.sTotal := rfl
@[simp] theorem State.writeSv_e32 (b : Bool) : (s.writeSv b).e32 = s.e32 := rfl
@[simp] theorem State.writeSv_e64 (b : Bool) : (s.writeSv b).e64 = s.e64 := rfl
@[simp] theorem State.writeSv_port (b : Bool) : (s.writeSv b).port = s.port := rfl
@[simp] theorem State.writeSv_hostRead (b : Bool) : (s.writeSv b).hostRead = s.hostRead := rfl

@[simp] theorem State.writeFv_result (b : Bool) : (s.writeFv b).result = s.result := rfl
@[simp] theorem State.writeFv_code (b : Bool) : (s.writeFv b).code = s.code := rfl
@[simp] theorem State.writeFv_sv (b : Bool) : (s.writeFv b).sv = s.sv := rfl
@[simp] theorem State.writeFv_fv (b : Bool) : (s.writeFv b).fv = b := rfl
@[simp] theorem State.writeFv_sSeed (b : Bool) : (s.writeFv b).sSeed = s.sSeed := rfl
@[simp] theorem State.writeFv_sV (b : Bool) : (s.writeFv b).sV = s.sV := rfl
@[simp] theorem State.writeFv_sBuf (b : Bool) : (s.writeFv b).sBuf = s.sBuf := rfl
@[simp] theorem State.writeFv_sBufLen (b : Bool) : (s.writeFv b).sBufLen = s.sBufLen := rfl
@[simp] theorem State.writeFv_sTotal (b : Bool) : (s.writeFv b).sTotal = s.sTotal := rfl
@[simp] theorem State.writeFv_e32 (b : Bool) : (s.writeFv b).e32 = s.e32 := rfl
@[simp] theorem State.writeFv_e64 (b : Bool) : (s.writeFv b).e64 = s.e64 := rfl
@[simp] theorem State.writeFv_port (b : Bool) : (s.writeFv b).port = s.port := rfl
@[simp] theorem State.writeFv_hostRead (b : Bool) : (s.writeFv b).hostRead = s.hostRead := rfl

@[simp] theorem State.writeSeed_result (v : U64) : (s.writeSeed v).result = s.result := rfl
@[simp] theorem State.writeSeed_code (v : U64) : (s.writeSeed v).code = s.code := rfl
@[simp] theorem State.writeSeed_sv (v : U64) : (s.writeSeed v).sv = s.sv := rfl
@[simp] theorem State.writeSeed_fv (v : U64) : (s.writeSeed v).fv = s.fv := rfl
@[simp] theorem State.writeSeed_sSeed (v : U64) : (s.writeSeed v).sSeed = some v := rfl
@[simp] theorem State.writeSeed_sV (v : U64) : (s.writeSeed v).sV = s.sV := rfl
@[simp] theorem State.writeSeed_sBuf (v : U64) : (s.writeSeed v).sBuf = s.sBuf := rfl
@[simp] theorem State.writeSeed_sBufLen (v : U64) : (s.writeSeed v).sBufLen = s.sBufLen := rfl
@[simp] theorem State.writeSeed_sTotal (v : U64) : (s.writeSeed v).sTotal = s.sTotal := rfl
@[simp] theorem State.writeSeed_e32 (v : U64) : (s.writeSeed v).e32 = s.e32 := rfl
@[simp] theorem State.writeSeed_e64 (v : U64) : (s.writeSeed v).e64 = s.e64 := rfl
@[simp] theorem State.writeSeed_port (v : U64) : (s.writeSeed v).port = s.port := rfl
@[simp] theorem State.writeSeed_hostRead (v : U64) : (s.writeSeed v).hostRead = s.hostRead := rfl

@[simp] theorem State.writeV_result (q : Quad 64) : (s.writeV q).result = s.result := rfl
@[simp] theorem State.writeV_code (q : Quad 64) : (s.writeV q).code = s.code := rfl
@[simp] theorem State.writeV_sv (q : Quad 64) : (s.writeV q).sv = s.sv := rfl
@[simp] theorem State.writeV_fv (q : Quad 64) : (s.writeV q).fv = s.fv := rfl
@[simp] theorem State.writeV_sSeed (q : Quad 64) : (s.writeV q).sSeed = s.sSeed := rfl
@[simp] theorem State.writeV_sV (q : Quad 64) : (s.writeV q).sV = some q := rfl
@[simp] theorem State.writeV_sBuf (q : Quad 64) : (s.writeV q).sBuf = s.sBuf := rfl
@[simp] theorem State.writeV_sBufLen (q : Quad 64) : (s.writeV q).sBufLen = s.sBufLen := rfl
@[simp] theorem State.writeV_sTotal (q : Quad 64) : (s.writeV q).sTotal = s.sTotal := rfl
@[simp] theorem State.writeV_e32 (q : Quad 64) : (s.writeV q).e32 = s.e32 := rfl
@[simp] theorem State.writeV_e64 (q : Quad 64) : (s.writeV q).e64 = s.e64 := rfl
@[simp] theorem State.writeV_port (q : Quad 64) : (s.writeV q).port = s.port := rfl
@[simp] theorem State.writeV_hostRead (q : Quad 64) : (s.writeV q).hostRead = s.hostRead := rfl

@[simp] theorem State.writeBuf_result (m : Memory) : (s.writeBuf m).result = s.result := rfl
@[simp] theorem State.writeBuf_code (m : Memory) : (s.writeBuf m).code = s.code := rfl
@[simp] theorem State.writeBuf_sv (m : Memory) : (s.writeBuf m).sv = s.sv := rfl
@[simp] theorem State.writeBuf_fv (m : Memory) : (s.writeBuf m).fv = s.fv := rfl
@[simp] theorem State.writeBuf_sSeed (m : Memory) : (s.writeBuf m).sSeed = s.sSeed := rfl
@[simp] theorem State.writeBuf_sV (m : Memory) : (s.writeBuf m).sV = s.sV := rfl
@[simp] theorem State.writeBuf_sBuf (m : Memory) : (s.writeBuf m).sBuf = m := rfl
@[simp] theorem State.writeBuf_sBufLen (m : Memory) : (s.writeBuf m).sBufLen = s.sBufLen := rfl
@[simp] theorem State.writeBuf_sTotal (m : Memory) : (s.writeBuf m).sTotal = s.sTotal := rfl
@[simp] theorem State.writeBuf_e32 (m : Memory) : (s.writeBuf m).e32 = s.e32 := rfl
@[simp] theorem State.writeBuf_e64 (m : Memory) : (s.writeBuf m).e64 = s.e64 := rfl
@[simp] theorem State.writeBuf_port (m : Memory) : (s.writeBuf m).port = s.port := rfl
@[simp] theorem State.writeBuf_hostRead (m : Memory) : (s.writeBuf m).hostRead = s.hostRead := rfl

@[simp] theorem State.writeBufLen_result (n : BitVec 6) : (s.writeBufLen n).result = s.result := rfl
@[simp] theorem State.writeBufLen_code (n : BitVec 6) : (s.writeBufLen n).code = s.code := rfl
@[simp] theorem State.writeBufLen_sv (n : BitVec 6) : (s.writeBufLen n).sv = s.sv := rfl
@[simp] theorem State.writeBufLen_fv (n : BitVec 6) : (s.writeBufLen n).fv = s.fv := rfl
@[simp] theorem State.writeBufLen_sSeed (n : BitVec 6) : (s.writeBufLen n).sSeed = s.sSeed := rfl
@[simp] theorem State.writeBufLen_sV (n : BitVec 6) : (s.writeBufLen n).sV = s.sV := rfl
@[simp] theorem State.writeBufLen_sBuf (n : BitVec 6) : (s.writeBufLen n).sBuf = s.sBuf := rfl
@[simp] theorem State.writeBufLen_sBufLen (n : BitVec 6) : (s.writeBufLen n).sBufLen = some n := rfl
@[simp] theorem State.writeBufLen_sTotal (n : BitVec 6) : (s.writeBufLen n).sTotal = s.sTotal := rfl
@[simp] theorem State.writeBufLen_e32 (n : BitVec 6) : (s.writeBufLen n).e32 = s.e32 := rfl
@[simp] theorem State.writeBufLen_e64 (n : BitVec 6) : (s.writeBufLen n).e64 = s.e64 := rfl
@[simp] theorem State.writeBufLen_port (n : BitVec 6) : (s.writeBufLen n).port = s.port := rfl
@[simp] theorem State.writeBufLen_hostRead (n : BitVec 6) : (s.writeBufLen n).hostRead = s.hostRead := rfl

@[simp] theorem State.writeTotal_result (v : U64) : (s.writeTotal v).result = s.result := rfl
@[simp] theorem State.writeTotal_code (v : U64) : (s.writeTotal v).code = s.code := rfl
@[simp] theorem State.writeTotal_sv (v : U64) : (s.writeTotal v).sv = s.sv := rfl
@[simp] theorem State.writeTotal_fv (v : U64) : (s.writeTotal v).fv = s.fv := rfl
@[simp] theorem State.writeTotal_sSeed (v : U64) : (s.writeTotal v).sSeed = s.sSeed := rfl
@[simp] theorem State.writeTotal_sV (v : U64) : (s.writeTotal v).sV = s.sV := rfl
@[simp] theorem State.writeTotal_sBuf (v : U64) : (s.writeTotal v).sBuf = s.sBuf := rfl
@[simp] theorem State.writeTotal_sBufLen (v : U64) : (s.writeTotal v).sBufLen = s.sBufLen := rfl
@[simp] theorem State.writeTotal_sTotal (v : U64) : (s.writeTotal v).sTotal = some v := rfl
@[simp] theorem State.writeTotal_e32 (v : U64) : (s.writeTotal v).e32 = s.e32 := rfl
@[simp] theorem State.writeTotal_e64 (v : U64) : (s.writeTotal v).e64 = s.e64 := rfl
@[simp] theorem State.writeTotal_port (v : U64) : (s.writeTotal v).port = s.port := rfl
@[simp] theorem State.writeTotal_hostRead (v : U64) : (s.writeTotal v).hostRead = s.hostRead := rfl

@[simp] theorem State.setE32_result (e : Option (Engine 32)) : (s.setE32 e).result = s.result := rfl
@[simp] theorem State.setE32_code (e : Option (Engine 32)) : (s.setE32 e).code = s.code := rfl
@[simp] theorem State.setE32_sv (e : Option (Engine 32)) : (s.setE32 e).sv = s.sv := rfl
@[simp] theorem State.setE32_fv (e : Option (Engine 32)) : (s.setE32 e).fv = s.fv := rfl
@[simp] theorem State.setE32_sSeed (e : Option (Engine 32)) : (s.setE32 e).sSeed = s.sSeed := rfl
@[simp] theorem State.setE32_sV (e : Option (Engine 32)) : (s.setE32 e).sV = s.sV := rfl
@[simp] theorem State.setE32_sBuf (e : Option (Engine 32)) : (s.setE32 e).sBuf = s.sBuf := rfl
@[simp] theorem State.setE32_sBufLen (e : Option (Engine 32)) : (s.setE32 e).sBufLen = s.sBufLen := rfl
@[simp] theorem State.setE32_sTotal (e : Option (Engine 32)) : (s.setE32 e).sTotal = s.sTotal := rfl
@[simp] theorem State.setE32_e32 (e : Option (Engine 32)) : (s.setE32 e).e32 = e := rfl
@[simp] theorem State.setE32_e64 (e : Option (Engine 32)) : (s.setE32 e).e64 = s.e64 := rfl
@[simp] theorem State.setE32_port (e : Option (Engine 32)) : (s.setE32 e).port = s.port := rfl
@[simp] theorem State.setE32_hostRead (e : Option (Engine 32)) : (s.setE32 e).hostRead = s.hostRead := rfl

@[simp] theorem State.setE64_result (e : Option (Engine 64)) : (s.setE64 e).result = s.result := rfl
@[simp] theorem State.setE64_code (e : Option (Engine 64)) : (s.setE64 e).code = s.code := rfl
@[simp] theorem State.setE64_sv (e : Option (Engine 64)) : (s.setE64 e).sv = s.sv := rfl
@[simp] theorem State.setE64_fv (e : Option (Engine 64)) : (s.setE64 e).fv = s.fv := rfl
@[simp] theorem State.setE64_sSeed (e : Option (Engine 64)) : (s.setE64 e).sSeed = s.sSeed := rfl
@[simp] theorem State.setE64_sV (e : Option (Engine 64)) : (s.setE64 e).sV = s.sV := rfl
@[simp] theorem State.setE64_sBuf (e : Option (Engine 64)) : (s.setE64 e).sBuf = s.sBuf := rfl
@[simp] theorem State.setE64_sBufLen (e : Option (Engine 64)) : (s.setE64 e).sBufLen = s.sBufLen := rfl
@[simp] theorem State.setE64_sTotal (e : Option (Engine 64)) : (s.setE64 e).sTotal = s.sTotal := rfl
@[simp] theorem State.setE64_e32 (e : Option (Engine 64)) : (s.setE64 e).e32 = s.e32 := rfl
@[simp] theorem State.setE64_e64 (e : Option (Engine 64)) : (s.setE64 e).e64 = e := rfl
@[simp] theorem State.setE64_port (e : Option (Engine 64)) : (s.setE64 e).port = s.port := rfl
@[simp] theorem State.setE64_hostRead (e : Option (Engine 64)) : (s.setE64 e).hostRead = s.hostRead := rfl

@[simp] theorem State.setPort_result (as : List HostAction) : (s.setPort as).result = s.result := rfl
@[simp] theorem State.setPort_code (as : List HostAction) : (s.setPort as).code = s.code := rfl
@[simp] theorem State.setPort_sv (as : List HostAction) : (s.setPort as).sv = s.sv := rfl
@[simp] theorem State.setPort_fv (as : List HostAction) : (s.setPort as).fv = s.fv := rfl
@[simp] theorem State.setPort_sSeed (as : List HostAction) : (s.setPort as).sSeed = s.sSeed := rfl
@[simp] theorem State.setPort_sV (as : List HostAction) : (s.setPort as).sV = s.sV := rfl
@[simp] theorem State.setPort_sBuf (as : List HostAction) : (s.setPort as).sBuf = s.sBuf := rfl
@[simp] theorem State.setPort_sBufLen (as : List HostAction) : (s.setPort as).sBufLen = s.sBufLen := rfl
@[simp] theorem State.setPort_sTotal (as : List HostAction) : (s.setPort as).sTotal = s.sTotal := rfl
@[simp] theorem State.setPort_e32 (as : List HostAction) : (s.setPort as).e32 = s.e32 := rfl
@[simp] theorem State.setPort_e64 (as : List HostAction) : (s.setPort as).e64 = s.e64 := rfl
@[simp] theorem State.setPort_port (as : List HostAction) : (s.setPort as).port = as := rfl
@[simp] theorem State.setPort_hostRead (as : List HostAction) : (s.setPort as).hostRead = s.hostRead := rfl

@[simp] theorem State.setHostRead_result (r : HostRead) : (s.setHostRead r).result = s.result := rfl
@[simp] theorem State.setHostRead_code (r : HostRead) : (s.setHostRead r).code = s.code := rfl
@[simp] theorem State.setHostRead_sv (r : HostRead) : (s.setHostRead r).sv = s.sv := rfl
@[simp] theorem State.setHostRead_fv (r : HostRead) : (s.setHostRead r).fv = s.fv := rfl
@[simp] theorem State.setHostRead_sSeed (r : HostRead) : (s.setHostRead r).sSeed = s.sSeed := rfl
@[simp] theorem State.setHostRead_sV (r : HostRead) : (s.setHostRead r).sV = s.sV := rfl
@[simp] theorem State.setHostRead_sBuf (r : HostRead) : (s.setHostRead r).sBuf = s.sBuf := rfl
@[simp] theorem State.setHostRead_sBufLen (r : HostRead) : (s.setHostRead r).sBufLen = s.sBufLen := rfl
@[simp] theorem State.setHostRead_sTotal (r : HostRead) : (s.setHostRead r).sTotal = s.sTotal := rfl
@[simp] theorem State.setHostRead_e32 (r : HostRead) : (s.setHostRead r).e32 = s.e32 := rfl
@[simp] theorem State.setHostRead_e64 (r : HostRead) : (s.setHostRead r).e64 = s.e64 := rfl
@[simp] theorem State.setHostRead_port (r : HostRead) : (s.setHostRead r).port = s.port := rfl
@[simp] theorem State.setHostRead_hostRead (r : HostRead) : (s.setHostRead r).hostRead = some r := rfl

@[simp] theorem finish_result (c : Code) : (finish c s).result = s.result := rfl
@[simp] theorem finish_code (c : Code) : (finish c s).code = c := rfl
@[simp] theorem finish_sv (c : Code) : (finish c s).sv = s.sv := rfl
@[simp] theorem finish_fv (c : Code) : (finish c s).fv = s.fv := rfl
@[simp] theorem finish_sSeed (c : Code) : (finish c s).sSeed = s.sSeed := rfl
@[simp] theorem finish_sV (c : Code) : (finish c s).sV = s.sV := rfl
@[simp] theorem finish_sBuf (c : Code) : (finish c s).sBuf = s.sBuf := rfl
@[simp] theorem finish_sBufLen (c : Code) : (finish c s).sBufLen = s.sBufLen := rfl
@[simp] theorem finish_sTotal (c : Code) : (finish c s).sTotal = s.sTotal := rfl
@[simp] theorem finish_e32 (c : Code) : (finish c s).e32 = s.e32 := rfl
@[simp] theorem finish_e64 (c : Code) : (finish c s).e64 = s.e64 := rfl
@[simp] theorem finish_port (c : Code) : (finish c s).port = s.port := rfl
@[simp] theorem finish_hostRead (c : Code) : (finish c s).hostRead = s.hostRead := rfl

@[simp] theorem raiseError_result (c : Code) : (raiseError c s).result = s.result := rfl
@[simp] theorem raiseError_code (c : Code) : (raiseError c s).code = c := rfl
@[simp] theorem raiseError_sv (c : Code) : (raiseError c s).sv = s.sv := rfl
@[simp] theorem raiseError_fv (c : Code) : (raiseError c s).fv = s.fv := rfl
@[simp] theorem raiseError_sSeed (c : Code) : (raiseError c s).sSeed = s.sSeed := rfl
@[simp] theorem raiseError_sV (c : Code) : (raiseError c s).sV = s.sV := rfl
@[simp] theorem raiseError_sBuf (c : Code) : (raiseError c s).sBuf = s.sBuf := rfl
@[simp] theorem raiseError_sBufLen (c : Code) : (raiseError c s).sBufLen = s.sBufLen := rfl
@[simp] theorem raiseError_sTotal (c : Code) : (raiseError c s).sTotal = s.sTotal := rfl
@[simp] theorem raiseError_e32 (c : Code) : (raiseError c s).e32 = s.e32 := rfl
@[simp] theorem raiseError_e64 (c : Code) : (raiseError c s).e64 = s.e64 := rfl
@[simp] theorem raiseError_port (c : Code) : (raiseError c s).port = s.port := rfl
@[simp] theorem raiseError_hostRead (c : Code) : (raiseError c s).hostRead = s.hostRead := rfl

end Sys2Proof.Machine
end

