-- ==== Sys2Proof/Laws/Memory.lean ====
section
/-! SUPPORT. BUF: read after write, the canonical form kept by every write, and what a run of byte writes leaves. -/

namespace Sys2Proof.Machine

@[simp] theorem Memory.read_nil (x : Nat) : Memory.read [] x = none := rfl

theorem Memory.read_cons (k : Nat) (c : U8) (m : Memory) (x : Nat) :
    Memory.read ((k, c) :: m) x = if k = x then some c else m.read x := rfl

/-- Read after write, whatever the list. -/
theorem Memory.read_write (m : Memory) (a : Nat) (b : U8) (x : Nat) :
    (m.write a b).read x = if x = a then some b else m.read x := by
  induction m with
  | nil => simp [Memory.write, Memory.read_cons, eq_comm]
  | cons c m ih =>
    obtain ⟨k, c⟩ := c
    simp only [Memory.write]
    split_ifs <;> simp only [Memory.read_cons, ih] <;> split_ifs <;> first | rfl | omega

theorem Memory.mem_write {m : Memory} {a : Nat} {b : U8} {c : Host.Cell} (h : c ∈ m.write a b) :
    c = (a, b) ∨ c ∈ m := by
  induction m with
  | nil => simpa [Memory.write] using h
  | cons d m ih =>
    simp only [Memory.write] at h
    split_ifs at h <;> grind

/-- A write below 32 keeps the canonical form. -/
theorem Memory.wf_write {m : Memory} (h : m.wf) {a : Nat} (ha : a < Config.bufCap) (b : U8) : (m.write a b).wf := by
  refine ⟨?_, fun c hc => ?_⟩
  · have hs := h.1
    clear h
    induction m with
    | nil => simp [Memory.write]
    | cons d m ih =>
      rw [List.pairwise_cons] at hs
      simp only [Memory.write]
      split_ifs with h1 h2
      · refine List.pairwise_cons.2 ⟨fun e he => ?_, List.pairwise_cons.2 hs⟩
        rcases List.mem_cons.1 he with rfl | he
        · exact h1
        · exact h1.trans (hs.1 e he)
      · subst h2
        exact List.pairwise_cons.2 hs
      · refine List.pairwise_cons.2 ⟨fun e he => ?_, ih hs.2⟩
        rcases Memory.mem_write he with rfl | he
        · simp only; omega
        · exact hs.1 e he
  · rcases Memory.mem_write hc with rfl | hc
    · exact ha
    · exact h.2 c hc

theorem Memory.wf_nil : Memory.wf [] := by simp [Memory.wf]

/-- Every listed offset reads as a value below 32. -/
theorem Memory.read_of_ge {m : Memory} (h : m.wf) {x : Nat} (hx : Config.bufCap ≤ x) : m.read x = none := by
  have h2 := h.2
  clear h
  induction m with
  | nil => rfl
  | cons d m ih =>
    rw [show d = (d.1, d.2) from rfl, Memory.read_cons, if_neg, ih]
    · exact fun c hc => h2 c (List.mem_cons_of_mem _ hc)
    · have := h2 d List.mem_cons_self
      omega

theorem Memory.read_eq_none_of_lt {m : Memory} {x : Nat} (h : ∀ c ∈ m, x < c.1) : m.read x = none := by
  induction m with
  | nil => rfl
  | cons d m ih =>
    rw [show d = (d.1, d.2) from rfl, Memory.read_cons, if_neg, ih fun c hc => h c (List.mem_cons_of_mem _ hc)]
    exact (h d List.mem_cons_self).ne'

theorem Memory.ext_of_rising {m n : Memory} (hm : m.Pairwise fun c d => c.1 < d.1)
    (hn : n.Pairwise fun c d => c.1 < d.1) (h : ∀ x, m.read x = n.read x) : m = n := by
  induction m generalizing n with
  | nil =>
    cases n with
    | nil => rfl
    | cons d n => simpa using (h d.1).trans (Memory.read_cons d.1 d.2 n d.1)
  | cons c m ih =>
    cases n with
    | nil => simpa using (h c.1).symm.trans (Memory.read_cons c.1 c.2 m c.1)
    | cons d n =>
      obtain ⟨k, b⟩ := c
      obtain ⟨l, e⟩ := d
      rw [List.pairwise_cons] at hm hn
      have hk := h k
      have hl := h l
      simp only [Memory.read_cons, if_true] at hk hl
      have hkl : k = l := by
        rcases Nat.lt_trichotomy k l with hlt | heq | hgt
        · rw [if_neg hlt.ne', Memory.read_eq_none_of_lt fun c hc => hlt.trans (hn.1 c hc)] at hk
          cases hk
        · exact heq
        · rw [if_neg hgt.ne', Memory.read_eq_none_of_lt fun c hc => hgt.trans (hm.1 c hc)] at hl
          cases hl
      subst hkl
      simp only [if_true, Option.some.injEq] at hk
      subst hk
      congr 1
      refine ih hm.2 hn.2 (fun x => ?_)
      have hx := h x
      simp only [Memory.read_cons] at hx
      by_cases hkx : k = x
      · subst hkx
        rw [Memory.read_eq_none_of_lt fun c hc => hm.1 c hc, Memory.read_eq_none_of_lt fun c hc => hn.1 c hc]
      · simpa [hkx] using hx

/-- Equal memories are equal data: canonical lists that read alike are the same list. -/
theorem Memory.ext {m n : Memory} (hm : m.wf) (hn : n.wf) (h : ∀ x, m.read x = n.read x) : m = n :=
  Memory.ext_of_rising hm.1 hn.1 h

/-- The byte write of R18 below 32. -/
theorem memWrite_of_lt {m : Memory} {off : Nat} (h : off < Config.bufCap) (b : U8) :
    memWrite m off b = .ok (m.write off b) := if_pos h

/-- Everything a run of byte writes that ends at or below 32 does: it never faults, keeps the canonical form, stores the
bytes in order, and leaves every other offset alone. -/
theorem memWrites_spec (bs : List U8) {m : Memory} {off : Nat} (h : off + bs.length ≤ Config.bufCap) :
    ∃ m', memWrites m off bs = .ok m' ∧ (m.wf → m'.wf) ∧
      ∀ x, m'.read x = if off ≤ x ∧ x < off + bs.length then bs[x - off]? else m.read x := by
  induction bs generalizing m off with
  | nil => exact ⟨m, rfl, id, fun x => by rw [if_neg (by simp)]⟩
  | cons b bs ih =>
    simp only [List.length_cons] at h
    have hoff : off < Config.bufCap := by omega
    obtain ⟨m', h1, h2, h3⟩ := ih (m := m.write off b) (off := off + 1) (by omega)
    refine ⟨m', ?_, fun hm => h2 (Memory.wf_write hm hoff b), fun x => ?_⟩
    · simp only [memWrites, memWrite_of_lt hoff]
      exact h1
    · rw [h3, Memory.read_write, List.length_cons]
      rcases Nat.lt_trichotomy x off with hx | rfl | hx
      · rw [if_neg (by omega), if_neg (by omega), if_neg (by omega)]
      · rw [if_neg (by omega), if_pos rfl, if_pos (by omega)]
        simp
      · obtain ⟨d, rfl⟩ : ∃ d, x = off + 1 + d := ⟨x - (off + 1), by omega⟩
        rw [if_neg (show ¬ off + 1 + d = off by omega), show off + 1 + d - (off + 1) = d by omega,
          show off + 1 + d - off = d + 1 by omega, List.getElem?_cons_succ]
        split_ifs <;> first | rfl | omega

end Sys2Proof.Machine
end

