-- ==== Sys2Proof/Laws/Units.lean ====
section
/-! SUPPORT. The lane reader, the stripes and the tails over a byte space that shows a list of bytes: in range they never
fault and compute what the list functions of Safety.lean say. -/

namespace Sys2Proof.Machine

open Config

/-- The byte space shows these bytes from offset `p` on: they are in range and each reads as listed. -/
structure Shows (S : ByteSpace) (p : Nat) (bs : List U8) : Prop where
  inRange : p + bs.length ≤ S.size
  reads : ∀ i (h : i < bs.length), S.byteAt (p + i) = .ok bs[i]

/-- IN shows DATA from any offset on. -/
theorem shows_input (data : List U8) {p : Nat} (hp : p ≤ data.length) : Shows (.input data) p (data.drop p) where
  inRange := by simp [ByteSpace.size]; omega
  reads i h := by
    have hi : p + i < data.length := by simpa using Nat.add_lt_of_lt_sub' (by simpa using h)
    simp [ByteSpace.byteAt, List.getElem?_eq_getElem hi]

/-- BUF shows the bytes it holds. -/
theorem shows_buf {m : Memory} {bs : List U8} (hm : m.Holds bs) (hl : bs.length ≤ bufCap) : Shows (.buf m) 0 bs where
  inRange := by simpa [ByteSpace.size] using hl
  reads i h := by
    have := hm i h
    rw [List.getElem?_eq_getElem h] at this
    simp [ByteSpace.byteAt, valueOf, this, show i < bufCap by omega]

theorem Shows.drop {S : ByteSpace} {p : Nat} {bs : List U8} (h : Shows S p bs) {k : Nat} (hk : k ≤ bs.length) :
    Shows S (p + k) (bs.drop k) where
  inRange := by have := h.inRange; simp; omega
  reads i hi := by
    have hi' : k + i < bs.length := by simp at hi; omega
    have := h.reads (k + i) hi'
    simpa [Nat.add_assoc] using this

theorem Shows.take {S : ByteSpace} {p : Nat} {bs : List U8} (h : Shows S p bs) (k : Nat) : Shows S p (bs.take k) where
  inRange := by have := h.inRange; simp; omega
  reads i hi := by
    have hi' : i < bs.length := by simp at hi; omega
    simpa using h.reads i hi'

theorem leSum_of_shows {S : ByteSpace} {p n : Nat} {bs : List U8} (h : Shows S p bs) (hn : n ≤ bs.length) :
    leSum S p n = .ok (leNat (bs.take n)) := by
  induction n generalizing p bs with
  | zero => rfl
  | succ n ih =>
    cases bs with
    | nil => simp at hn
    | cons b bs =>
      have hb : S.byteAt p = .ok b := h.reads 0 (by simp)
      have hd : Shows S (p + 1) bs := by simpa using h.drop (k := 1) (by simp)
      simp only [leSum, hb, ih hd (by simpa using hn), bind, Except.bind, List.take_succ_cons, leNat]
      norm_num

/-- In range the lane reader never faults (R64). -/
theorem memRead_of_shows {S : ByteSpace} {p n : Nat} {bs : List U8} (h : Shows S p bs) (hn : n ≤ bs.length) :
    memRead S p n = .ok (leNat (bs.take n)) := by
  rw [memRead, if_pos (by have := h.inRange; omega), leSum_of_shows h hn]

theorem lane32_of_shows {S : ByteSpace} {p : Nat} {bs : List U8} (h : Shows S p bs) (hn : 4 ≤ bs.length) :
    lane32 S p = .ok (laneOf 32 4 bs) := by
  simp only [lane32, memRead_of_shows h hn, bind, Except.bind, laneOf]

theorem lane64_of_shows {S : ByteSpace} {p : Nat} {bs : List U8} (h : Shows S p bs) (hn : 8 ≤ bs.length) :
    lane64 S p = .ok (laneOf 64 8 bs) := by
  simp only [lane64, memRead_of_shows h hn, bind, Except.bind, laneOf]

theorem byte_of_shows {S : ByteSpace} {p : Nat} {b : U8} {bs : List U8} (h : Shows S p (b :: bs)) :
    byte S p = .ok b := by
  simp [byte, memRead_of_shows h (n := 1) (by simp), bind, Except.bind, leNat]

theorem stripe32_of_shows {S : ByteSpace} {p : Nat} {bs : List U8} (v : Quad 32) (h : Shows S p bs)
    (hn : chunk32 ≤ bs.length) : stripe32 S v p = .ok (chunkStripe32 v bs) := by
  have hn : 16 ≤ bs.length := hn
  simp only [stripe32, Nat.add_zero, lane32_of_shows h (show 4 ≤ bs.length by omega),
    lane32_of_shows (h.drop (k := 4) (by omega)) (by simp; omega),
    lane32_of_shows (h.drop (k := 8) (by omega)) (by simp; omega),
    lane32_of_shows (h.drop (k := 12) (by omega)) (by simp; omega), bind, Except.bind, chunkStripe32]

theorem stripe64_of_shows {S : ByteSpace} {p : Nat} {bs : List U8} (v : Quad 64) (h : Shows S p bs)
    (hn : chunk64 ≤ bs.length) : stripe64 S v p = .ok (chunkStripe64 v bs) := by
  have hn : 32 ≤ bs.length := hn
  simp only [stripe64, Nat.add_zero, lane64_of_shows h (show 8 ≤ bs.length by omega),
    lane64_of_shows (h.drop (k := 8) (by omega)) (by simp; omega),
    lane64_of_shows (h.drop (k := 16) (by omega)) (by simp; omega),
    lane64_of_shows (h.drop (k := 24) (by omega)) (by simp; omega), bind, Except.bind, chunkStripe64]

/-- A loop whose body computes `f` on the bytes shown runs `f` over the chunks, and moves the offset past them. -/
theorem passes_of_shows {α : Type} {S : ByteSpace} {size : Nat} {body : α → Nat → Except Fault α}
    {f : α → List U8 → α}
    (hf : ∀ x p bs, Shows S p bs → size ≤ bs.length → body x p = .ok (f x bs))
    (k : Nat) (x : α) {p : Nat} {bs : List U8} (h : Shows S p bs) (hk : size * k ≤ bs.length) :
    passes size body k x p = .ok (overChunks size f k x bs, p + size * k) := by
  induction k generalizing x p bs with
  | zero => rfl
  | succ k ih =>
    rw [Nat.mul_succ] at hk
    simp only [passes, hf x p bs h (by omega), bind, Except.bind,
      ih (f x bs) (h.drop (k := size) (by omega)) (by simp; omega), overChunks]
    congr 2
    rw [Nat.mul_succ]; omega

/-! ## The chunk fold -/

theorem overChunks_add {α : Type} (size : Nat) (f : α → List U8 → α) (j k : Nat) (x : α) (bs : List U8) :
    overChunks size f (j + k) x bs = overChunks size f k (overChunks size f j x bs) (bs.drop (size * j)) := by
  induction j generalizing x bs with
  | zero => simp [overChunks]
  | succ j ih =>
    rw [Nat.succ_add]
    simp only [overChunks, ih, List.drop_drop]
    congr 2
    rw [Nat.mul_succ, Nat.add_comm]

theorem overChunks_append {α : Type} (size : Nat) (f : α → List U8 → α)
    (hf : ∀ x bs cs, size ≤ bs.length → f x (bs ++ cs) = f x bs)
    (k : Nat) (x : α) {bs : List U8} (hk : size * k ≤ bs.length) (cs : List U8) :
    overChunks size f k x (bs ++ cs) = overChunks size f k x bs := by
  induction k generalizing x bs with
  | zero => rfl
  | succ k ih =>
    rw [Nat.mul_succ] at hk
    simp only [overChunks, hf x bs cs (by omega), List.drop_append_of_le_length (show size ≤ bs.length by omega),
      ih (f x bs) (bs := bs.drop size) (by simp; omega)]

theorem laneOf_append (w n : Nat) {bs : List U8} (h : n ≤ bs.length) (cs : List U8) :
    laneOf w n (bs ++ cs) = laneOf w n bs := by
  rw [laneOf, laneOf, List.take_append_of_le_length h]

theorem chunkStripe64_append (v : Quad 64) {bs : List U8} (h : chunk64 ≤ bs.length) (cs : List U8) :
    chunkStripe64 v (bs ++ cs) = chunkStripe64 v bs := by
  have h : 32 ≤ bs.length := h
  simp only [chunkStripe64]
  rw [List.drop_append_of_le_length (by omega), List.drop_append_of_le_length (by omega),
    List.drop_append_of_le_length (by omega), laneOf_append _ _ (by omega), laneOf_append _ _ (by simp; omega),
    laneOf_append _ _ (by simp; omega), laneOf_append _ _ (by simp; omega)]

theorem stripes64Of_append (k : Nat) (v : Quad 64) {bs : List U8} (hk : chunk64 * k ≤ bs.length) (cs : List U8) :
    stripes64Of k v (bs ++ cs) = stripes64Of k v bs :=
  overChunks_append _ _ (fun x _ cs h => chunkStripe64_append x h cs) k v hk cs

theorem stripes64Of_add (j k : Nat) (v : Quad 64) (bs : List U8) :
    stripes64Of (j + k) v bs = stripes64Of k (stripes64Of j v bs) (bs.drop (chunk64 * j)) :=
  overChunks_add _ _ j k v bs

/-! ## The tails -/

/-- The step a byte loop makes on the bytes shown. -/
def onHead {α : Type} (f : α → U8 → α) (x : α) : List U8 → α
  | b :: _ => f x b
  | [] => x

theorem overChunks_onHead {α : Type} (f : α → U8 → α) (x : α) (bs : List U8) :
    overChunks 1 (onHead f) bs.length x bs = bs.foldl f x := by
  induction bs generalizing x with
  | nil => rfl
  | cons b bs ih => simp [overChunks, onHead, ih]

/-- The tail of R137 over bytes shown to its end. -/
theorem tail32_of_shows (h : U32) {S : ByteSpace} {p : Nat} {bs : List U8} (hS : Shows S p bs) :
    tail32 h S p (p + bs.length) = .ok (hashTail32 h bs, p + bs.length) := by
  have e : lane32Bytes = 4 := rfl
  have hq : 4 * (bs.length / 4) ≤ bs.length := Nat.mul_div_le _ _
  have hlanes := passes_of_shows (body := tailLane32 S) (f := fun h c => t4_32 h (laneOf 32 4 c))
    (fun x p bs hb hl => by simp only [tailLane32, lane32_of_shows hb hl, bind, Except.bind])
    (bs.length / 4) h hS hq
  have hbytes := passes_of_shows (body := tailByte32 S) (f := onHead t1_32) (size := 1)
    (fun x p bs hb hl => by
      cases bs with
      | nil => simp at hl
      | cons b bs => simp only [tailByte32, byte_of_shows hb, bind, Except.bind, onHead])
    (bs.drop (4 * (bs.length / 4))).length
    (overChunks 4 (fun h c => t4_32 h (laneOf 32 4 c)) (bs.length / 4) h bs) (hS.drop hq) (by simp)
  rw [overChunks_onHead, List.length_drop] at hbytes
  simp only [tail32, e, Nat.add_sub_cancel_left, hlanes, bind, Except.bind]
  rw [show p + bs.length - (p + 4 * (bs.length / 4)) = bs.length - 4 * (bs.length / 4) by omega, hbytes,
    hashTail32]
  congr 2
  omega

/-- The byte loop of R138 over bytes shown to its end. -/
theorem tailBytes64_of_shows (h : U64) {S : ByteSpace} {p : Nat} {bs : List U8} (hS : Shows S p bs) :
    passes 1 (tailByte64 S) bs.length h p = .ok (bs.foldl t1_64 h, p + bs.length) := by
  rw [passes_of_shows (f := onHead t1_64) (fun x p bs hb hl => ?_) bs.length h hS (by simp), overChunks_onHead,
    Nat.one_mul]
  cases bs with
  | nil => simp at hl
  | cons b bs => simp only [tailByte64, byte_of_shows hb, bind, Except.bind, onHead]

/-- The steps of R138 after the 8-byte ones. -/
theorem tailRest64_of_shows (h : U64) {S : ByteSpace} {p : Nat} {bs : List U8} (hS : Shows S p bs)
    (hl : bs.length < 8) :
    (do
      let (h, q) ← passes 4 (tailHalf64 S) (if p + 4 ≤ p + bs.length then 1 else 0) h p
      passes 1 (tailByte64 S) (p + bs.length - q) h q) = .ok (hashRest64 h bs, p + bs.length) := by
  by_cases h4 : bs.length < 4
  · have hb := tailBytes64_of_shows h hS
    rw [if_neg (by omega)]
    simp only [passes, bind, Except.bind, Nat.add_sub_cancel_left, hb, hashRest64, if_pos h4]
  · have hS' := hS.drop (k := 4) (by omega)
    have hb := tailBytes64_of_shows (t4_64 h (laneOf 32 4 bs)) hS'
    rw [if_pos (by omega)]
    simp only [passes, tailHalf64, lane32_of_shows hS (show 4 ≤ bs.length by omega), bind, Except.bind]
    rw [List.length_drop] at hb
    rw [show p + bs.length - (p + 4) = bs.length - 4 by omega, hb, hashRest64, if_neg h4]
    congr 2
    omega

/-- The tail of R138 over bytes shown to its end. -/
theorem tail64_of_shows (h : U64) {S : ByteSpace} {p : Nat} {bs : List U8} (hS : Shows S p bs) :
    tail64 h S p (p + bs.length) = .ok (hashTail64 h bs, p + bs.length) := by
  have hq : 8 * (bs.length / 8) ≤ bs.length := Nat.mul_div_le _ _
  have hlanes := passes_of_shows (body := tailLane64 S) (f := fun h c => t8_64 h (laneOf 64 8 c))
    (fun x p bs hb hl => by simp only [tailLane64, lane64_of_shows hb hl, bind, Except.bind])
    (bs.length / 8) h hS hq
  have hrest := tailRest64_of_shows (overChunks 8 (fun h c => t8_64 h (laneOf 64 8 c)) (bs.length / 8) h bs)
    (hS.drop hq) (by simp; omega)
  have hend : p + 8 * (bs.length / 8) + (bs.drop (8 * (bs.length / 8))).length = p + bs.length := by simp; omega
  rw [hend] at hrest
  simp only [tail64, show lane64Bytes = 8 from rfl, show lane32Bytes = 4 from rfl, Nat.add_sub_cancel_left]
  rw [hlanes]
  exact hrest

end Sys2Proof.Machine
end

