-- ==== Sys2Proof/Laws/Hash.lean ====
section
/-! SUPPORT. The two one-shot engines over IN: they never fault, stop at p = n (R32), and hold the near-final value of the
hash function of Safety.lean. -/

namespace Sys2Proof.Machine

open Config

theorem entry32_spec (seed : U32) (data : List U8) :
    ∃ e, entry32 seed (.input data) data.length = .ok e ∧ e.p = chunk32 * (data.length / chunk32) ∧
      e.h = (if data.length < chunk32 then seed + p32_5
        else converge32 (stripes32Of (data.length / chunk32) (init32 seed) data)) := by
  have h0 : Shows (.input data) 0 data := shows_input data (Nat.zero_le _)
  by_cases hn : data.length < chunk32
  · refine ⟨_, if_neg (by omega), ?_, ?_⟩
    · simp [Nat.div_eq_of_lt hn]
    · simp [hn]
  · have hs := passes_of_shows (body := stripe32 (.input data)) (f := chunkStripe32)
      (fun v p bs hb hl => stripe32_of_shows v hb hl) (data.length / chunk32) (init32 seed) h0 (Nat.mul_div_le _ _)
    refine ⟨{ p := chunk32 * (data.length / chunk32),
              h := converge32 (stripes32Of (data.length / chunk32) (init32 seed) data),
              v := some (stripes32Of (data.length / chunk32) (init32 seed) data) }, ?_, rfl, (if_neg hn).symm⟩
    rw [entry32, if_pos (by omega), hs]
    simp only [bind, Except.bind, stripes32Of, Nat.zero_add]

/-- HASH32's engine: p = n at the end (R32), and the avalanche of E32.h is the hash. -/
theorem engine32_spec (seed : U32) (data : List U8) :
    ∃ e, engine32 seed (.input data) data.length = .ok e ∧ e.p = data.length ∧
      avalanche32 e.h = xxh32 seed data := by
  obtain ⟨e, he, hp, hh⟩ := entry32_spec seed data
  have hq : chunk32 * (data.length / chunk32) ≤ data.length := Nat.mul_div_le _ _
  have ht := tail32_of_shows (e.h + BitVec.ofNat 32 data.length) (shows_input data hq)
  rw [← hp] at ht hq
  rw [List.length_drop, Nat.add_sub_cancel' hq] at ht
  refine ⟨{ p := data.length, h := hashTail32 (e.h + BitVec.ofNat 32 data.length) (data.drop e.p), v := e.v }, ?_, rfl,
    ?_⟩
  · simp only [engine32, he, bind, Except.bind, addLength32, ht]
  · simp only [xxh32, hh, hp]

theorem entry64_spec (seed : U64) (data : List U8) :
    ∃ e, entry64 seed (.input data) data.length = .ok e ∧ e.p = chunk64 * (data.length / chunk64) ∧
      e.h = (if data.length < chunk64 then seed + p64_5
        else converge64 (stripes64Of (data.length / chunk64) (init64 seed) data)) := by
  have h0 : Shows (.input data) 0 data := shows_input data (Nat.zero_le _)
  by_cases hn : data.length < chunk64
  · refine ⟨_, if_neg (by omega), ?_, ?_⟩
    · simp [Nat.div_eq_of_lt hn]
    · simp [hn]
  · have hs := passes_of_shows (body := stripe64 (.input data)) (f := chunkStripe64)
      (fun v p bs hb hl => stripe64_of_shows v hb hl) (data.length / chunk64) (init64 seed) h0 (Nat.mul_div_le _ _)
    refine ⟨{ p := chunk64 * (data.length / chunk64),
              h := converge64 (stripes64Of (data.length / chunk64) (init64 seed) data),
              v := some (stripes64Of (data.length / chunk64) (init64 seed) data) }, ?_, rfl, (if_neg hn).symm⟩
    rw [entry64, if_pos (by omega), hs]
    simp only [bind, Except.bind, stripes64Of, Nat.zero_add]

/-- HASH64's engine: p = n at the end (R32), and the avalanche of E64.h is the hash. -/
theorem engine64_spec (seed : U64) (data : List U8) :
    ∃ e, engine64 seed (.input data) data.length = .ok e ∧ e.p = data.length ∧
      avalanche64 e.h = xxh64 seed data := by
  obtain ⟨e, he, hp, hh⟩ := entry64_spec seed data
  have hq : chunk64 * (data.length / chunk64) ≤ data.length := Nat.mul_div_le _ _
  have ht := tail64_of_shows (e.h + BitVec.ofNat 64 data.length) (shows_input data hq)
  rw [← hp] at ht hq
  rw [List.length_drop, Nat.add_sub_cancel' hq] at ht
  refine ⟨{ p := data.length, h := hashTail64 (e.h + BitVec.ofNat 64 data.length) (data.drop e.p), v := e.v }, ?_, rfl,
    ?_⟩
  · simp only [engine64, he, bind, Except.bind, addLength64, ht]
  · simp only [xxh64, hh, hp]

end Sys2Proof.Machine
end

