-- ==== Sys2Proof/Laws/Stream.lean ====
section
/-! SUPPORT. The bounded chunk buffer and the stream: everything consume, a drain, a pass and the whole loop of
S64_APPEND do to a live stream. -/

namespace Sys2Proof.Machine

open Config

/-! ## BUF under a run of absorbed bytes -/

theorem BufAbsorbs.refl (m : Memory) (len : Nat) : BufAbsorbs m m len [] :=
  ⟨fun i h => by simp at h, fun _ _ => rfl⟩

/-- Absorbing one run of bytes after another is absorbing both. -/
theorem BufAbsorbs.trans {m m₁ m₂ : Memory} {len : Nat} {d₁ d₂ : List U8} (h₁ : BufAbsorbs m m₁ len d₁)
    (h₂ : BufAbsorbs m₁ m₂ ((len + d₁.length) % 32) d₂) : BufAbsorbs m m₂ len (d₁ ++ d₂) := by
  refine ⟨fun i hi hlast => ?_, fun x hx => ?_⟩
  · rw [List.length_append] at hi hlast
    by_cases hd : i < d₁.length
    · rw [List.getElem?_append_left hd, ← h₁.1 i hd (by omega)]
      exact h₂.2 _ fun j hj => by omega
    · have := h₂.1 (i - d₁.length) (by omega) (by omega)
      rw [List.getElem?_append_right (by omega), ← this]
      congr 1
      omega
  · rw [h₂.2 x fun j hj => ?_, h₁.2 x fun i hi => hx i (by simp; omega)]
    have := hx (d₁.length + j) (by simp; omega)
    omega

theorem memWrites_absorbs {m : Memory} {off : Nat} {bs : List U8} (h : off + bs.length ≤ 32) :
    ∃ m', memWrites m off bs = .ok m' ∧ (m.wf → m'.wf) ∧ BufAbsorbs m m' off bs := by
  obtain ⟨m', h1, h2, h3⟩ := memWrites_spec bs (m := m) (off := off) h
  refine ⟨m', h1, h2, fun i hi _ => ?_, fun x hx => ?_⟩
  · rw [h3, Nat.mod_eq_of_lt (by omega), if_pos (by omega), Nat.add_sub_cancel_left]
  · rw [h3, if_neg fun hr => hx (x - off) (by omega) (by rw [Nat.mod_eq_of_lt] <;> omega)]

/-- The bytes BUF holds after absorbing: what is left of them all once the whole chunks are gone. -/
theorem BufAbsorbs.holds {m m' : Memory} {held data : List U8} (hm : m.Holds held) (hl : held.length < 32)
    (h : BufAbsorbs m m' held.length data) :
    m'.Holds ((held ++ data).drop (32 * ((held.length + data.length) / 32))) := by
  intro i hi
  simp only [List.length_drop, List.length_append] at hi
  rw [List.getElem?_drop]
  by_cases hq : 32 * ((held.length + data.length) / 32) + i < held.length
  · rw [List.getElem?_append_left hq, h.2 i fun j hj => by omega, hm i (by omega)]
    congr 1
    omega
  · rw [List.getElem?_append_right (by omega),
      ← h.1 (32 * ((held.length + data.length) / 32) + i - held.length) (by omega) (by omega)]
    congr 1
    omega

/-! ## A live stream -/

theorem toNat_ofNat6 {n : Nat} (h : n ≤ 32) : (BitVec.ofNat 6 n).toNat = n := by
  rw [BitVec.toNat_ofNat, Nat.mod_eq_of_lt (by omega)]

/-- S_BUFLEN at most 32 reads as it stands. -/
theorem readBufLen_of {s : State} {n : Nat} (h : s.sBufLen = some (BitVec.ofNat 6 n)) (hn : n ≤ 32) :
    readBufLen s = .ok (BitVec.ofNat 6 n) := by
  simp only [readBufLen, h, valueOf]
  rw [if_pos (by rw [toNat_ofNat6 hn]; exact hn)]

theorem isFull_of {s : State} {n : Nat} (h : s.sBufLen = some (BitVec.ofNat 6 n)) (hn : n ≤ 32) :
    isFull s = .ok (decide (n = 32)) := by
  simp only [isFull, readBufLen_of h hn, bind, Except.bind, toNat_ofNat6 hn, show bufCap = 32 from rfl]

/-- Everything consume does (R222): it never faults while S_BUFLEN ≤ 32, takes min(available(), |B|) bytes, and writes
S_BUF and S_BUFLEN alone. -/
theorem consume_spec {s : State} {n : Nat} (h : s.sBufLen = some (BitVec.ofNat 6 n)) (hn : n ≤ 32) (B : List U8) :
    ∃ m, consume B s = .ok (min (32 - n) B.length, B.drop (min (32 - n) B.length),
        (s.writeBuf m).writeBufLen (BitVec.ofNat 6 (n + min (32 - n) B.length))) ∧
      (s.sBuf.wf → m.wf) ∧ BufAbsorbs s.sBuf m n (B.take (min (32 - n) B.length)) := by
  obtain ⟨m, h1, h2, h3⟩ := memWrites_absorbs (m := s.sBuf) (off := n) (bs := B.take (min (32 - n) B.length))
    (by simp; omega)
  refine ⟨m, ?_, h2, h3⟩
  simp only [consume, available, readBufLen_of h hn, bind, Except.bind, toNat_ofNat6 hn, show bufCap = 32 from rfl, h1]
  rw [BitVec.ofNat_add]

/-- Everything a drain does on a full buffer (R226). -/
theorem drain_spec {s : State} {v : Quad 64} {bs : List U8} (hv : s.sV = some v) (hl : bs.length = 32)
    (hm : s.sBuf.Holds bs) :
    drain s = .ok ((s.writeV (chunkStripe64 v bs)).writeBufLen 0#6) := by
  have := stripe64_of_shows v (shows_buf hm (by simp [hl, bufCap])) (by simp [hl, chunk64])
  simp only [drain, readV, hv, valueOf, bind, Except.bind, this]

/-- A pass that does not fill the buffer absorbs everything. -/
theorem absorbPass_short {s : State} {v : Quad 64} {total : U64} {held data : List U8} (h : LiveAt s v total held)
    (hn : held.length + data.length < 32) :
    ∃ m, absorbPass data s = .ok ([], ((s.writeBuf m).writeBufLen
          (BitVec.ofNat 6 (held.length + data.length))).writeTotal (total + BitVec.ofNat 64 data.length)) ∧
      (s.sBuf.wf → m.wf) ∧ BufAbsorbs s.sBuf m held.length data := by
  obtain ⟨m, h1, h2, h3⟩ := consume_spec h.sBufLen (by have := h.lt; omega) data
  have hk : min (32 - held.length) data.length = data.length := by omega
  rw [hk] at h1 h3
  rw [List.take_length] at h3
  refine ⟨m, ?_, h2, h3⟩
  have hf := isFull_of h.sBufLen (by have := h.lt; omega)
  rw [decide_eq_false (by have := h.lt; omega)] at hf
  have hf' := isFull_of (s := ((s.writeBuf m).writeBufLen
      (BitVec.ofNat 6 (held.length + data.length))).writeTotal (total + BitVec.ofNat 64 data.length))
    (n := held.length + data.length) rfl (by omega)
  rw [decide_eq_false (by omega)] at hf'
  simp [absorbPass, hf, h1, readTotal, h.sTotal, valueOf, bind, Except.bind, hf']

/-- A pass that fills the buffer absorbs up to 32 bytes and drains them at once (R225). -/
theorem absorbPass_full {s : State} {v : Quad 64} {total : U64} {held data : List U8} (h : LiveAt s v total held)
    (hn : 32 ≤ held.length + data.length) :
    ∃ m, absorbPass data s = .ok (data.drop (32 - held.length),
          ((((s.writeBuf m).writeBufLen (BitVec.ofNat 6 32)).writeTotal
            (total + BitVec.ofNat 64 (32 - held.length))).writeV
              (chunkStripe64 v (held ++ data.take (32 - held.length)))).writeBufLen 0#6) ∧
      (s.sBuf.wf → m.wf) ∧ BufAbsorbs s.sBuf m held.length (data.take (32 - held.length)) := by
  obtain ⟨m, h1, h2, h3⟩ := consume_spec h.sBufLen (by have := h.lt; omega) data
  have hlt := h.lt
  have hk : min (32 - held.length) data.length = 32 - held.length := by omega
  rw [hk] at h1 h3
  rw [show held.length + (32 - held.length) = 32 by omega] at h1
  refine ⟨m, ?_, h2, h3⟩
  have hf := isFull_of h.sBufLen (by omega)
  rw [decide_eq_false (by omega)] at hf
  have hholds := h3.holds h.holds h.lt
  have htake : (data.take (32 - held.length)).length = 32 - held.length := by simp; omega
  rw [htake, show held.length + (32 - held.length) = 32 by omega] at hholds
  -- BUF holds the 32 bytes in full: one whole chunk, nothing drained yet
  have hall : m.Holds (held ++ data.take (32 - held.length)) := by
    intro i hi
    rw [List.length_append, htake] at hi
    by_cases hlow : i < held.length
    · rw [List.getElem?_append_left hlow, h3.2 i fun j hj => by omega, h.holds i hlow]
    · rw [List.getElem?_append_right (by omega), ← h3.1 (i - held.length) (by omega) (by omega)]
      congr 1
      omega
  have hf' := isFull_of (s := ((s.writeBuf m).writeBufLen (BitVec.ofNat 6 32)).writeTotal
      (total + BitVec.ofNat 64 (32 - held.length))) (n := 32) rfl (by omega)
  have hd := drain_spec (s := ((s.writeBuf m).writeBufLen (BitVec.ofNat 6 32)).writeTotal
      (total + BitVec.ofNat 64 (32 - held.length))) (v := v)
    (bs := held ++ data.take (32 - held.length)) (by simpa using h.sV) (by rw [List.length_append, htake]; omega)
    (by simpa using hall)
  simp [absorbPass, hf, h1, readTotal, h.sTotal, valueOf, bind, Except.bind, hf', hd]

/-- Everything the loop of S64_APPEND does to a live stream (R231, R232, R235): it never faults; the accumulators take
one stripe for each whole chunk of the bytes held and absorbed; S_TOTAL grows by |DATA|; S_BUFLEN is what is left over;
the bytes are in BUF; and no other register changes. -/
theorem absorb_spec (fuel : Nat) {s : State} {v : Quad 64} {total : U64} {held data : List U8}
    (h : LiveAt s v total held) (hfuel : data.length ≤ fuel) :
    ∃ m, absorb fuel data s = .ok
        { s with
          sV := some (stripes64Of ((held.length + data.length) / 32) v (held ++ data))
          sTotal := some (total + BitVec.ofNat 64 data.length)
          sBufLen := some (BitVec.ofNat 6 ((held.length + data.length) % 32))
          sBuf := m } ∧
      (s.sBuf.wf → m.wf) ∧ BufAbsorbs s.sBuf m held.length data := by
  induction fuel generalizing s v total held data with
  | zero =>
    obtain rfl : data = [] := List.length_eq_zero_iff.1 (by omega)
    refine ⟨s.sBuf, ?_, id, BufAbsorbs.refl _ _⟩
    have := h.lt
    simp [absorb, stripes64Of, Nat.div_eq_of_lt h.lt, Nat.mod_eq_of_lt h.lt, overChunks, ← h.sV, ← h.sTotal, ← h.sBufLen]
  | succ fuel ih =>
    cases data with
    | nil =>
      refine ⟨s.sBuf, ?_, id, BufAbsorbs.refl _ _⟩
      simp [absorb, stripes64Of, Nat.div_eq_of_lt h.lt, Nat.mod_eq_of_lt h.lt, overChunks, ← h.sV, ← h.sTotal, ← h.sBufLen]
    | cons b bs =>
      generalize hdata : b :: bs = data at *
      have hpos : 0 < data.length := by rw [← hdata]; simp
      have hstep : absorb (fuel + 1) data s = (do
          let (rest, s) ← absorbPass data s
          absorb fuel rest s) := by rw [← hdata]; rfl
      rw [hstep]
      by_cases hn : held.length + data.length < 32
      · obtain ⟨m, h1, h2, h3⟩ := absorbPass_short h hn
        refine ⟨m, ?_, h2, h3⟩
        rw [Nat.div_eq_of_lt hn, Nat.mod_eq_of_lt hn]
        simp only [h1, bind, Except.bind]
        cases fuel <;>
          simp [absorb, stripes64Of, overChunks, State.writeBuf, State.writeBufLen, State.writeTotal, ← h.sV]
      · obtain ⟨m, h1, h2, h3⟩ := absorbPass_full (data := data) h (by omega)
        have hlt := h.lt
        have hlive : LiveAt (((((s.writeBuf m).writeBufLen (BitVec.ofNat 6 32)).writeTotal
            (total + BitVec.ofNat 64 (32 - held.length))).writeV
              (chunkStripe64 v (held ++ data.take (32 - held.length)))).writeBufLen 0#6)
            (chunkStripe64 v (held ++ data.take (32 - held.length)))
            (total + BitVec.ofNat 64 (32 - held.length)) [] :=
          ⟨rfl, rfl, rfl, by simp, fun i hi => by simp at hi⟩
        obtain ⟨m', h4, h5, h6⟩ := ih (data := data.drop (32 - held.length)) hlive (by simp; omega)
        have htake : (data.take (32 - held.length)).length = 32 - held.length := by simp; omega
        refine ⟨m', ?_, fun hw => h5 (h2 hw), ?_⟩
        · simp only [h1, bind, Except.bind]
          rw [h4]
          have hcount : (held.length + data.length) / 32 = 1 + (data.length - (32 - held.length)) / 32 := by omega
          have hmod : (held.length + data.length) % 32 = (data.length - (32 - held.length)) % 32 := by omega
          have hdrop : (held ++ data).drop (32 * 1) = data.drop (32 - held.length) := by
            rw [List.drop_append, List.drop_eq_nil_of_le (by omega), List.nil_append]
          have hone : stripes64Of 1 v (held ++ data) =
              chunkStripe64 v (held ++ data.take (32 - held.length)) := by
            conv_lhs => rw [← List.take_append_drop (32 - held.length) data, ← List.append_assoc]
            exact stripes64Of_append 1 v (bs := held ++ data.take (32 - held.length))
              (by rw [List.length_append, htake]; simp [chunk64]; omega) _
          rw [hcount, hmod, stripes64Of_add, hone, show chunk64 = 32 from rfl, hdrop]
          have htot : total + BitVec.ofNat 64 (32 - held.length) + BitVec.ofNat 64 (data.length - (32 - held.length)) =
              total + BitVec.ofNat 64 data.length := by
            rw [BitVec.add_assoc, ← BitVec.ofNat_add, show 32 - held.length + (data.length - (32 - held.length)) =
              data.length by omega]
          simp [State.writeBuf, State.writeBufLen, State.writeTotal, State.writeV, htot]
        · conv => arg 4; rw [← List.take_append_drop (32 - held.length) data]
          refine h3.trans ?_
          rw [htake, show (held.length + (32 - held.length)) % 32 = 0 by omega]
          simpa using h6

end Sys2Proof.Machine
end

