-- ==== Sys2Proof/Laws/Exec.lean ====
section
/-! SUPPORT. What a command can do to any state at all, said once (`exec_cases`), and the stream commands on a live
stream. -/

namespace Sys2Proof.Machine

open Config

@[simp] theorem toOutcome_eq_next {x : Except Fault State} {t : State} : toOutcome x = .next t ↔ x = .ok t := by
  cases x <;> simp [toOutcome]

@[simp] theorem toOutcome_eq_fault {x : Except Fault State} {f : Fault} : toOutcome x = .fault f ↔ x = .error f := by
  cases x <;> simp [toOutcome]

@[simp] theorem toOutcome_ne_refused {x : Except Fault State} {r : Refusal} : toOutcome x ≠ .refused r := by
  cases x <;> simp [toOutcome]

/-- An answer of a bind is an answer of its parts. -/
theorem bind_eq_ok {α β : Type} {x : Except Fault α} {f : α → Except Fault β} {b : β} :
    (x >>= f) = .ok b ↔ ∃ a, x = .ok a ∧ f a = .ok b := by
  cases x <;> simp [bind, Except.bind]

/-- The states that differ from `s` in the stream registers an append writes alone. -/
def streamWritten (s t : State) : Prop :=
  t = { s with sV := t.sV, sBuf := t.sBuf, sBufLen := t.sBufLen, sTotal := t.sTotal }

theorem streamWritten.trans {s t u : State} (h₁ : streamWritten s t) (h₂ : streamWritten t u) : streamWritten s u := by
  unfold streamWritten at *
  rw [h₁] at h₂
  exact h₂

theorem consume_frame {B rest : List U8} {k : Nat} {s t : State} (h : consume B s = .ok (k, rest, t)) :
    streamWritten s t := by
  simp only [consume, bind_eq_ok, Except.ok.injEq, Prod.mk.injEq] at h
  obtain ⟨_, _, _, _, _, _, -, -, rfl⟩ := h
  rfl

theorem drain_frame {s t : State} (h : drain s = .ok t) : streamWritten s t := by
  simp only [drain, bind_eq_ok, Except.ok.injEq] at h
  obtain ⟨_, _, _, _, rfl⟩ := h
  rfl

theorem absorbPass_frame {B rest : List U8} {s t : State} (h : absorbPass B s = .ok (rest, t)) : streamWritten s t := by
  simp only [absorbPass, bind_eq_ok] at h
  obtain ⟨full, -, h⟩ := h
  cases full
  · simp only [Bool.false_eq_true, if_false, bind_eq_ok] at h
    obtain ⟨⟨k, r, u⟩, hc, total, -, full, -, h⟩ := h
    have hu : streamWritten s (u.writeTotal (total + BitVec.ofNat 64 k)) := (consume_frame hc).trans rfl
    cases full
    · simp only [Bool.false_eq_true, if_false, Except.ok.injEq, Prod.mk.injEq] at h
      exact h.2 ▸ hu
    · simp only [if_true, bind_eq_ok, Except.ok.injEq, Prod.mk.injEq] at h
      obtain ⟨w, hd, -, rfl⟩ := h
      exact hu.trans (drain_frame hd)
  · simp at h

/-- Whatever state it starts in, the loop of S64_APPEND writes the stream registers alone. -/
theorem absorb_frame (fuel : Nat) {B : List U8} {s t : State} (h : absorb fuel B s = .ok t) : streamWritten s t := by
  induction fuel generalizing B s with
  | zero => cases B <;> simp [absorb] at h; subst h; rfl
  | succ fuel ih =>
    cases B with
    | nil => simp only [absorb, Except.ok.injEq] at h; subst h; rfl
    | cons b bs =>
      simp only [absorb, bind_eq_ok] at h
      obtain ⟨⟨rest, u⟩, hp, h⟩ := h
      exact (absorbPass_frame hp).trans (ih h)

/-- Everything a command that completes can have done, in any state whatever: it only reported an error; it hashed; it
started, fed or finalized the stream. -/
theorem exec_cases {i : Instr} {s t : State} (h : exec i s = .next t) :
    (∃ c, c ≠ .ok ∧ t = raiseError c s ∧ (isAppend i ∨ isFinal i)) ∨
    (∃ seed data v, i = .hash32 seed data ∧ t = finish .ok ((s.writeResult v).setE32 none)) ∨
    (∃ seed data v, i = .hash64 seed data ∧ t = finish .ok ((s.writeResult v).setE64 none)) ∨
    (∃ seed data, i = .s64Init seed data ∧ t = finish .ok (((((((s.writeSeed seed).writeV (init64 seed)).writeBufLen
      0#6).writeTotal 0#64).writeSv true).writeFv false))) ∨
    (∃ seed data u, i = .s64Append seed data ∧ s.sv = true ∧ absorb data.length data s = .ok u ∧
      streamWritten s u ∧ t = finish .ok (u.writeFv false)) ∨
    (∃ seed data v, i = .s64Final seed data ∧ s.sv = true ∧ t = finish .ok ((s.writeResult v).writeFv true)) := by
  cases i with
  | hash32 seed data =>
    simp only [exec, execHash32, toOutcome_eq_next, bind_eq_ok, Except.ok.injEq] at h
    obtain ⟨_, _, _, _, rfl⟩ := h
    exact .inr (.inl ⟨_, _, _, rfl, rfl⟩)
  | hash64 seed data =>
    simp only [exec, execHash64, toOutcome_eq_next, bind_eq_ok, Except.ok.injEq] at h
    obtain ⟨_, _, _, _, rfl⟩ := h
    exact .inr (.inr (.inl ⟨_, _, _, rfl, rfl⟩))
  | s64Init seed data =>
    simp only [exec, execS64Init, Host.Outcome.next.injEq] at h
    exact .inr (.inr (.inr (.inl ⟨_, _, rfl, h.symm⟩)))
  | s64Append seed data =>
    simp only [exec, execS64Append, toOutcome_eq_next] at h
    split_ifs at h with hsv
    · exact .inl ⟨.errNoStream, by decide, (Except.ok.inj h).symm, .inl rfl⟩
    · simp only [bind_eq_ok] at h
      obtain ⟨total, -, h⟩ := h
      split_ifs at h
      · exact .inl ⟨.errLength, by decide, (Except.ok.inj h).symm, .inl rfl⟩
      · simp only [bind_eq_ok, Except.ok.injEq] at h
        obtain ⟨u, hu, rfl⟩ := h
        exact .inr (.inr (.inr (.inr (.inl ⟨_, _, u, rfl, by simpa using hsv, hu, absorb_frame _ hu, rfl⟩))))
  | s64Final seed data =>
    simp only [exec, execS64Final, toOutcome_eq_next] at h
    split_ifs at h with hsv
    · exact .inl ⟨.errNoStream, by decide, (Except.ok.inj h).symm, .inr rfl⟩
    · simp only [bind_eq_ok, Except.ok.injEq] at h
      obtain ⟨_, _, _, _, _, _, _, _, rfl⟩ := h
      exact .inr (.inr (.inr (.inr (.inr ⟨_, _, _, rfl, by simpa using hsv, rfl⟩))))

/-! ## What the port does with a command -/

/-- A transaction is refused for its length alone; one that fits runs its instruction, or is ILLEGAL. -/
theorem runCommand_cases (t : Transaction) (s : State) :
    (runCommand t s = .refused .dataTooLong ∧ ¬ t.WellFormed) ∨
    (t.WellFormed ∧ ((∃ i, decode t = .ok i ∧ runCommand t s = exec i s) ∨
      (∃ e, decode t = .error e) ∧ runCommand t s = .next (illegalCommand s))) := by
  unfold runCommand
  split_ifs with h
  · cases decode t with
    | ok i => exact .inr ⟨h, .inl ⟨i, rfl, rfl⟩⟩
    | error e => exact .inr ⟨h, .inr ⟨⟨e, rfl⟩, rfl⟩⟩
  · exact .inl ⟨rfl, h⟩

/-- No meaning ever refuses. -/
theorem exec_ne_refused (i : Instr) (s : State) (r : Refusal) : exec i s ≠ .refused r := by
  cases i <;> simp [exec, execHash32, execHash64, execS64Init, execS64Append, execS64Final]

/-! ## The stream commands on a live stream -/

theorem bufLen_mask (n : BitVec 6) : (n &&& 31#6).toNat = n.toNat % 32 := by
  rw [BitVec.toNat_and]
  exact Nat.and_two_pow_sub_one_eq_mod n.toNat 5

/-- While SV = 1 the invariant gives the bytes held. -/
theorem StreamLive.liveAt {s : State} (h : StreamLive s) :
    ∃ seed v total held, s.sSeed = some seed ∧ LiveAt s v total held ∧ held.length = total.toNat % 32 := by
  obtain ⟨seed, v, total, len, h1, h2, h3, h4, h5, h6⟩ := h
  have hlt : len.toNat < 32 := by rw [h5]; exact Nat.mod_lt _ (by decide)
  refine ⟨seed, v, total, (List.range len.toNat).map fun i => (s.sBuf.read i).getD 0, h1, ⟨h2, h3, ?_, ?_, ?_⟩, ?_⟩
  · rw [List.length_map, List.length_range, BitVec.ofNat_toNat, BitVec.setWidth_eq]; exact h4
  · simpa using hlt
  · intro i hi
    rw [List.length_map, List.length_range] at hi
    obtain ⟨b, hb⟩ := h6 i hi
    rw [List.getElem?_map, List.getElem?_range hi, hb]
    simp [hb]
  · simpa [chunk64] using h5

/-- The tail of S64_FINAL (R236, R238): over the bytes held. -/
theorem finalTail_of {s : State} {v : Quad 64} {total : U64} {held : List U8} (h : LiveAt s v total held) (x : U64) :
    tail64 x (.buf s.sBuf) 0 (BitVec.ofNat 6 held.length &&& 31#6).toNat = .ok (hashTail64 x held, held.length) := by
  have hl := h.lt
  have := tail64_of_shows x (shows_buf h.holds (by simp [bufCap]; omega))
  rw [bufLen_mask, toNat_ofNat6 (by omega), Nat.mod_eq_of_lt hl]
  simpa using this

/-- An absorbed stream is live: its registers are those of R45, and BUF holds what the whole chunks leave. -/
theorem Absorbed.liveAt {s : State} {seed : U64} {bs : List U8} (h : Absorbed s seed bs) :
    LiveAt s (stripes64Of (bs.length / 32) (init64 seed) bs) (BitVec.ofNat 64 bs.length)
      (bs.drop (32 * (bs.length / 32))) where
  sV := h.sV
  sTotal := h.sTotal
  sBufLen := by
    rw [h.sBufLen, List.length_drop]
    congr 2
    simp only [chunk64]
    omega
  lt := by rw [List.length_drop]; omega
  holds := h.sBuf

/-- S64_APPEND once its two checks pass: the loop, then FV and the code. -/
theorem execS64Append_of {s u : State} {total : U64} {data : List U8} (seed : U64) (hs : s.sv = true)
    (ht : s.sTotal = some total) (hl : total.toNat + data.length ≤ maxTotal) (h : absorb data.length data s = .ok u) :
    execS64Append seed data s = .next (finish .ok (u.writeFv false)) := by
  rw [execS64Append, if_neg (by simp [hs]), readTotal, ht]
  simp only [valueOf, bind, Except.bind]
  rw [if_neg (by omega), h]
  rfl

/-- S64_FINAL once its check passes: the avalanche of the tail, then FV and the code. -/
theorem execS64Final_of {s : State} {total h : U64} {len : BitVec 6} {r : U64} {p : Nat} (seed : U64) (data : List U8)
    (hs : s.sv = true) (ht : s.sTotal = some total) (hb : finalBase s total = .ok h) (hl : readBufLen s = .ok len)
    (hr : tail64 (h + total) (.buf s.sBuf) 0 (len &&& 31#6).toNat = .ok (r, p)) :
    execS64Final seed data s = .next (finish .ok ((s.writeResult (avalanche64 r)).writeFv true)) := by
  rw [execS64Final, if_neg (by simp [hs]), readTotal, ht]
  simp only [valueOf, bind, Except.bind, hb, hl, hr]
  rfl

end Sys2Proof.Machine
end

