-- ==== Sys2Proof/Laws/PerInstr.lean ====
section
/-! SUPPORT. What holds of every command as syntax: its command word is one of the opcode map, it has no reserved bit set,
and issuing it carries both operands unchanged. -/

namespace Sys2Proof.Laws

namespace CommandWord

/-- The transaction of a command has RSV = 0 and OP ≤ 4 (R91, R94), and both operands whole (R90). -/
def Statement (i : Instr) : Prop :=
  rsvField (encode i).cmd = 0#5 ∧ (opField (encode i).cmd).toNat ≤ 4 ∧ (encode i).seed = i.seed ∧
    (encode i).data = i.data ∧ ((encode i).WellFormed ↔ i.WellFormed)

theorem hash32 (seed : U64) (data : List U8) : Statement (.hash32 seed data) :=
  ⟨(by decide : rsvField 0x00#8 = 0#5), (by decide : (opField 0x00#8).toNat ≤ 4), rfl, rfl, Iff.rfl⟩

theorem hash64 (seed : U64) (data : List U8) : Statement (.hash64 seed data) :=
  ⟨(by decide : rsvField 0x01#8 = 0#5), (by decide : (opField 0x01#8).toNat ≤ 4), rfl, rfl, Iff.rfl⟩

theorem s64Init (seed : U64) (data : List U8) : Statement (.s64Init seed data) :=
  ⟨(by decide : rsvField 0x02#8 = 0#5), (by decide : (opField 0x02#8).toNat ≤ 4), rfl, rfl, Iff.rfl⟩

theorem s64Append (seed : U64) (data : List U8) : Statement (.s64Append seed data) :=
  ⟨(by decide : rsvField 0x03#8 = 0#5), (by decide : (opField 0x03#8).toNat ≤ 4), rfl, rfl, Iff.rfl⟩

theorem s64Final (seed : U64) (data : List U8) : Statement (.s64Final seed data) :=
  ⟨(by decide : rsvField 0x04#8 = 0#5), (by decide : (opField 0x04#8).toNat ≤ 4), rfl, rfl, Iff.rfl⟩

end CommandWord

end Sys2Proof.Laws
end

