-- ==== Sys2Proof/Tests/Slice0.lean ====
section
/-! SUPPORT. Tests with expected values from the spec, and the witnesses: for every obligation with hypotheses a concrete
state and operands that meet them together. Expected values are those of 95_test_vectors.md: V1 to V5 are the source's own
vectors, every other number there is derived from the rules by the spec's authors. -/

namespace Sys2Proof.Tests

open Sys2Proof.Machine Sys2Proof.Config

-- One test at a time: elaborating many `decide`s at once asks for more threads than a memory limit may allow.
set_option Elab.async false

/-! ## Inputs and small states -/

/-- The byte i of `pattern n` is i mod 256. -/
def pattern (n : Nat) : List U8 := (List.range n).map (BitVec.ofNat 8)

/-- ASCII, with no terminator. -/
def ascii (text : String) : List U8 := text.toList.map fun c => BitVec.ofNat 8 c.toNat

/-- The input of V2 and V4. -/
def fox : List U8 := ascii "The quick brown fox jumps over the lazy dog"

/-- The input of V3 and V5. -/
def nobody : List U8 := ascii "Nobody inspects the spammish repetition"

/-- What a view of the next state shows; `none` if the outcome is not a next state. -/
def seen {α : Type} (view : State → α) : Host.Outcome State Fault Refusal → Option α
  | .next s => some (view s)
  | .fault _ => none
  | .refused _ => none

/-- A live stream: `v`, `total` and the bytes held, from offset 0 on. -/
def streaming (v : Quad 64) (total : U64) (held : List U8) : State :=
  { State.reset with
    sv := true
    sSeed := some 0#64
    sV := some v
    sTotal := some total
    sBufLen := some (BitVec.ofNat 6 held.length)
    sBuf := (List.range held.length).zip held }

/-- A stream of seed 0 that has absorbed "abc". -/
def abc : State := streaming (init64 0#64) 3#64 (ascii "abc")

/-- Trace T1 after its first append: 20 bytes of `fox`, no drain. -/
def fox20 : State := streaming (init64 0#64) 20#64 (fox.take 20)

/-- The accumulators of trace T1 after the drain. -/
def foxV : Quad 64 :=
  ⟨0x1BF961D28F3A149D#64, 0x0BD18AA2EE4D901F#64, 0x9986F59CC4FE6078#64, 0x79F80495CC7EBC76#64⟩

/-- Trace T1 after both appends. -/
def fox43 : State := streaming foxV 43#64 (fox.drop 32)

/-- The stream at the edge of S_TOTAL (60_exceptions.md): 2^64 − 2 bytes absorbed, so S_BUFLEN = 30. -/
def nearLimit : State := streaming foxV (BitVec.ofNat 64 (2 ^ 64 - 2)) (pattern 30)

/-- The reset state with the host about to do this. -/
def about (a : HostAction) : State := State.reset.setPort [a]

/-! ## WellFormed refuses an ill-formed term -/

/-- The one check on a transaction, on `n` bytes of DATA. -/
theorem wellFormed_replicate (n : Nat) :
    (Transaction.mk 0#8 0#64 (List.replicate n 0#8)).WellFormed ↔ n ≤ 2 ^ 64 - 1 := by
  simp [Transaction.WellFormed, maxData]

/-- R12: 2^64 bytes of DATA are one too many. -/
theorem test_wellFormed_refuses_transaction : ¬ (Transaction.mk 0#8 0#64 (List.replicate (2 ^ 64) 0#8)).WellFormed :=
  fun h => absurd ((wellFormed_replicate (2 ^ 64)).1 h) (by decide)

theorem test_wellFormed_takes_the_longest_transaction :
    (Transaction.mk 0#8 0#64 (List.replicate (2 ^ 64 - 1) 0#8)).WellFormed := (wellFormed_replicate (2 ^ 64 - 1)).2 (by decide)

/-- The same check on a command. -/
theorem instr_wellFormed_replicate (n : Nat) :
    (Instr.s64Append 0#64 (List.replicate n 0#8)).WellFormed ↔ n ≤ 2 ^ 64 - 1 := by
  simp [Instr.WellFormed, Instr.data, maxData]

theorem test_wellFormed_refuses_instr : ¬ (Instr.s64Append 0#64 (List.replicate (2 ^ 64) 0#8)).WellFormed :=
  fun h => absurd ((instr_wellFormed_replicate (2 ^ 64)).1 h) (by decide)

/-- The canonical form refuses an offset that repeats, one out of order and one past the buffer. -/
theorem test_wf_refuses_memories : ¬ Memory.wf [(3, 0#8), (3, 1#8)] ∧ ¬ Memory.wf [(4, 0#8), (3, 1#8)] ∧
    ¬ Memory.wf [(32, 0#8)] := by decide

/-! ## Decoding: words written bit by bit, RSV in bits 7 to 3, OP in bits 2 to 0 (R91, R94) -/

theorem test_decode_hash32 : decode ⟨0b00000000#8, 5#64, ascii "x"⟩ = .ok (.hash32 5#64 (ascii "x")) := by decide
theorem test_decode_hash64 : decode ⟨0b00000001#8, 5#64, ascii "x"⟩ = .ok (.hash64 5#64 (ascii "x")) := by decide
theorem test_decode_s64Init : decode ⟨0b00000010#8, 5#64, []⟩ = .ok (.s64Init 5#64 []) := by decide
theorem test_decode_s64Append : decode ⟨0b00000011#8, 0#64, ascii "x"⟩ = .ok (.s64Append 0#64 (ascii "x")) := by decide
theorem test_decode_s64Final : decode ⟨0b00000100#8, 0#64, []⟩ = .ok (.s64Final 0#64 []) := by decide

theorem test_decode_reserved_opcodes : ∀ c ∈ [0b00000101#8, 0b00000110#8, 0b00000111#8],
    decode ⟨c, 0#64, []⟩ = .error .reservedOpcode := by decide

theorem test_decode_reserved_bits : ∀ c ∈ [0b00001000#8, 0b00010001#8, 0b00100010#8, 0b01000011#8, 0b10000100#8],
    decode ⟨c, 0#64, []⟩ = .error .reservedBits := by decide

theorem test_table_words : decodeTableWord 8 0 = some (.hash32 0#64 []) ∧ decodeTableWord 8 1 = some (.hash64 0#64 []) ∧
    decodeTableWord 8 2 = some (.s64Init 0#64 []) ∧ decodeTableWord 8 3 = some (.s64Append 0#64 []) ∧
    decodeTableWord 8 4 = some (.s64Final 0#64 []) ∧ decodeTableWord 8 5 = none := by decide

theorem test_withFetchWord_runs_next :
    step (State.reset.withFetchWord 8 2) = exec (.s64Init 0#64 []) State.reset := rfl

/-! ## The assembler (95_test_vectors.md, programs 1 and 3) -/

/-- What a line assembles to, written out. -/
def assembled (line : String) : Option (List Char) :=
  match assembleLine line.toList with
  | .ok (some t) => some (renderTransaction t)
  | .ok none => none
  | .error _ => none

theorem test_assemble_program1_line1 : assembled "HASH32 0, \"Hello World!\"                     ; V1" =
    some "CMD=0x00 SEED=0x0000000000000000 DATA=48656c6c6f20576f726c6421".toList := by decide +kernel

theorem test_assemble_program1_line6 : assembled "HASH32 0xFFFFFFFF, \"\"" =
    some "CMD=0x00 SEED=0x00000000FFFFFFFF DATA=".toList := by decide +kernel

theorem test_assemble_stream_lines :
    assembled "S64.INIT 0xFFFFFFFFFFFFFFFF" = some "CMD=0x02 SEED=0xFFFFFFFFFFFFFFFF DATA=".toList ∧
    assembled "S64.APPEND hex:20   ; byte 32" = some "CMD=0x03 SEED=0x0000000000000000 DATA=20".toList ∧
    assembled "S64.FINAL" = some "CMD=0x04 SEED=0x0000000000000000 DATA=".toList := by decide +kernel

/-- R99: a seed literal of 2^32 is too wide for HASH32. -/
theorem test_assemble_refuses_a_wide_seed :
    assembleLine "HASH32 0x100000000, \"\"".toList = .error .seedTooWide := by decide +kernel

/-! ## The units (95_test_vectors.md section 2) -/

theorem test_lanes : lane32 (.input (pattern 16)) 1 = .ok 0x04030201#32 ∧
    lane64 (.input (pattern 16)) 8 = .ok 0x0F0E0D0C0B0A0908#64 := by decide +kernel

theorem test_rounds : round32 0x9E3779B1#32 0x85EBCA77#32 = 0x29952B3A#32 ∧
    round64 0x9E3779B185EBCA87#64 0xC2B2AE3D27D4EB4F#64 = 0x1B0917BC8762A770#64 ∧
    merge64 1#64 0#64 = 0x24234429489E78EA#64 ∧ merge64 0#64 1#64 = 0x9D049A611F451521#64 := by decide +kernel

theorem test_converge : converge32 (init32 0xFFFFFFFF#32) = 0x57654AB1#32 ∧
    converge64 (init64 1#64) = 0xA7A8C769433FBD60#64 := by decide +kernel

theorem test_avalanches : avalanche32 1#32 = 0x606D18A8#32 ∧ avalanche64 1#64 = 0x283A72A5B9AB93D3#64 := by decide +kernel

theorem test_tail_steps : t4_32 0xFFFFFFFF#32 0xFFFFFFFF#32 = 0x9F65E046#32 ∧
    t1_32 0xFFFFFFFF#32 0xFF#8 = 0x4B5AD200#32 ∧
    t8_64 (-1#64) (-1#64) = 0xA62DF368DF98814D#64 ∧ t4_64 (-1#64) (-1#32) = 0xA5E7440B8CBF8452#64 ∧
    t1_64 (-1#64) 0xFF#8 = 0xF23140CB699463A1#64 := by decide +kernel

/-! ## HASH32 -/

/-- V1, the short path with 12 bytes, and V2, the long path with two stripes; SEED[63:32] is ignored (R92). -/
theorem test_hash32_source_vectors :
    seen (fun s => (s.result, statusWord s)) (exec (.hash32 0#64 (ascii "Hello World!")) State.reset) =
      some (some 0x0BD69788#64, 0x00#8) ∧
    seen State.result (exec (.hash32 0xFFFFFFFF00000000#64 fox) State.reset) = some (some 0xE85EA4DE#64) := by
  decide +kernel

/-- n = 15 and n = 16 with the seed that wraps: the two sides of the path test. -/
theorem test_hash32_threshold :
    seen State.result (exec (.hash32 0xFFFFFFFF#64 (pattern 15)) State.reset) = some (some 0xB8E05D5A#64) ∧
    seen State.result (exec (.hash32 0xFFFFFFFF#64 (pattern 16)) State.reset) = some (some 0x19BB218D#64) := by
  decide +kernel

/-! ## HASH64 -/

/-- V4: one stripe, one 8-byte step, three byte steps. -/
theorem test_hash64_v4 : seen (fun s => (s.result, statusWord s)) (exec (.hash64 0#64 fox) fox43) =
    some (some 0x0B242D361FDA71BC#64, 0x08#8) := by decide +kernel

/-- V5: one stripe, one 4-byte step, three byte steps. -/
theorem test_hash64_v5 : seen State.result (exec (.hash64 0#64 nobody) State.reset) =
    some (some 0xFBCEA83C8A378BF1#64) := by decide +kernel

/-! ## The stream: trace T1, and program 3 -/

theorem test_init : seen (fun s => (s.sV, s.sTotal, s.sBufLen, statusWord s)) (exec (.s64Init 1#64 []) State.reset) =
    some (some ⟨0x60EA27EEADC0B5D7#64, 0xC2B2AE3D27D4EB50#64, 1#64, 0x61C8864E7A14357A#64⟩, some 0#64, some 0#6,
      0x08#8) := by decide +kernel

/-- The second append of trace T1 drains once and holds "he lazy dog"; the append of trace T3 drains twice. -/
theorem test_append_drains :
    seen (fun s => (s.sV, s.sTotal, s.sBufLen)) (exec (.s64Append 0#64 (fox.drop 20)) fox20) =
      some (some foxV, some 43#64, some 11#6) ∧
    seen (fun s => (s.sBuf.take 11).map (·.2)) (exec (.s64Append 0#64 (fox.drop 20)) fox20) =
      some (ascii "he lazy dog") ∧
    seen (fun s => (s.sV, s.sTotal, s.sBufLen))
        (exec (.s64Append 0#64 (pattern 70)) (streaming (init64 (-1#64)) 0#64 [])) =
      some (some ⟨0x336EA2263C1599F3#64, 0xF4EB03FE87523F0E#64, 0x3E8959A9D382B4C9#64, 0x3D0FD63E9EBF59E4#64⟩,
        some 70#64, some 6#6) := by decide +kernel

/-- S64_FINAL of trace T1 is V4. -/
theorem test_final : seen (fun s => (s.result, statusWord s)) (exec (.s64Final 9#64 (ascii "x")) fox43) =
    some (some 0x0B242D361FDA71BC#64, 0x18#8) := by decide +kernel

/-- S11: no bytes at all, the hash of the empty input. -/
theorem test_final_of_nothing : seen State.result (exec (.s64Final 0#64 []) (streaming (init64 0#64) 0#64 [])) =
    some (some 0xEF46DB3751D8E999#64) := by decide +kernel

/-! ## Errors (program 1; 60_exceptions.md) -/

theorem test_errors : seen statusWord (step (about (.command ⟨0x04#8, 0#64, []⟩))) = some 0x02#8 ∧
    seen statusWord (step (about (.command ⟨0x05#8, 0#64, []⟩))) = some 0x01#8 ∧
    seen statusWord (step (about (.command ⟨0x08#8, 0#64, []⟩))) = some 0x01#8 := by decide +kernel

/-- R44, R265: two more bytes than fit, then one that fits exactly. -/
theorem test_length_limit : seen statusWord (exec (.s64Append 0#64 (pattern 2)) nearLimit) = some 0x0B#8 ∧
    seen (fun s => (statusWord s, s.sTotal)) (exec (.s64Append 0#64 (pattern 1)) nearLimit) =
      some (0x08#8, some (-1#64)) := by decide +kernel

/-! ## The host's reads -/

theorem test_result_bytes : resultBytes .little 0x0102030405060708#64 = [8#8, 7#8, 6#8, 5#8, 4#8, 3#8, 2#8, 1#8] ∧
    resultBytes .big 0x0102030405060708#64 = [1#8, 2#8, 3#8, 4#8, 5#8, 6#8, 7#8, 8#8] := by decide +kernel

theorem test_result_has_no_value_at_reset : step (about .readResult) = .fault (.noValue .result) := rfl

/-! ## Facts about the small states, for the witnesses -/

theorem abc_inv : Inv abc where
  buf := by decide
  live _ := ⟨0#64, init64 0#64, 3#64, 3#6, rfl, rfl, rfl, rfl, by decide, fun i h => by
    have : i < 3 := h
    interval_cases i <;> exact ⟨_, rfl⟩⟩
  off h := by cases h
  finalized h := by cases h
  engine32 := rfl
  engine64 := rfl

theorem abc_absorbed : Absorbed abc 0#64 (ascii "abc") where
  sv := rfl
  sSeed := rfl
  short := by decide
  sTotal := rfl
  sBufLen := rfl
  sV := rfl
  sBuf := by unfold Memory.Holds; decide

theorem nearLimit_inv : Inv nearLimit where
  buf := by decide +kernel
  live _ := ⟨0#64, foxV, BitVec.ofNat 64 (2 ^ 64 - 2), 30#6, rfl, rfl, rfl, rfl, by decide, fun i h => by
    have : i < 30 := h
    interval_cases i <;> exact ⟨_, rfl⟩⟩
  off h := by cases h
  finalized h := by cases h
  engine32 := rfl
  engine64 := rfl

theorem nearLimit_liveAt : LiveAt nearLimit foxV (BitVec.ofNat 64 (2 ^ 64 - 2)) (pattern 30) where
  sV := rfl
  sTotal := rfl
  sBufLen := rfl
  lt := by decide
  holds := by unfold Memory.Holds; decide +kernel

theorem reset_inv : Inv State.reset where
  buf := by decide
  live h := by cases h
  off _ := ⟨rfl, rfl, rfl, rfl, rfl⟩
  finalized h := by cases h
  engine32 := rfl
  engine64 := rfl

/-! ## Witnesses -/

theorem witness_StepRunsTheDecodedCommand :
    (let t : Transaction := ⟨0x02#8, 7#64, []⟩
     (about (.command t)).port = .command t :: [] ∧ t.data.length ≤ 2 ^ 64 - 1 ∧ decode t = .ok (.s64Init 7#64 [])) ∧
    decodeTableWord 8 4 = some (.s64Final 0#64 []) := by decide

theorem witness_IdleBlockKeepsEveryRegister : abc.port = [] := rfl

/-- The words 5, 6, 7, the least and the greatest with a reserved bit. -/
theorem witness_IllegalWordOnlySetsErrIllegal : ∀ c ∈ [0x05#8, 0x06#8, 0x07#8, 0x08#8, 0xFF#8],
    (about (.command ⟨c, 1#64, [2#8]⟩)).port = .command ⟨c, 1#64, [2#8]⟩ :: [] ∧ [2#8].length ≤ 2 ^ 64 - 1 ∧
    (c.toNat / 8 ≠ 0 ∨ c.toNat % 8 = 5 ∨ c.toNat % 8 = 6 ∨ c.toNat % 8 = 7) := by decide

theorem witness_UnusedOperandsAreIgnored :
    (0x1_0000_0005#64).toNat % 2 ^ 32 = (5#64).toNat % 2 ^ 32 ∧ 0x1_0000_0005#64 ≠ 5#64 := by decide

/-- Each seed bound at its last value inside and its first outside. -/
theorem witness_PseudoInstructionsExpand :
    assemble (.hash32 (2 ^ 32 - 1) []) = .ok ⟨0x00#8, 0xFFFFFFFF#64, []⟩ ∧
    assemble (.hash32 (2 ^ 32) []) = .error .seedTooWide ∧
    assemble (.hash64 (2 ^ 64 - 1) []) = .ok ⟨0x01#8, -1#64, []⟩ ∧
    assemble (.hash64 (2 ^ 64) []) = .error .seedTooWide ∧
    assemble (.s64Init (2 ^ 64 - 1)) = .ok ⟨0x02#8, -1#64, []⟩ ∧
    assemble (.s64Init (2 ^ 64)) = .error .seedTooWide := by decide

/-- After S64_INIT alone S_BUF still holds no value, at its first and last offset, while S64_FINAL completes. -/
theorem witness_ResetHoldsTheSpecValues :
    State.reset.result = none ∧ State.reset.sSeed = none ∧ State.reset.sV = none ∧ State.reset.sBufLen = none ∧
    State.reset.sTotal = none ∧ State.reset.e32 = none ∧ State.reset.e64 = none ∧
    (streaming (init64 0#64) 0#64 []).sBuf.read 0 = none ∧ (streaming (init64 0#64) 0#64 []).sBuf.read 31 = none ∧
    seen State.code (execAll [.s64Init 0#64 [], .s64Final 0#64 []] State.reset) = some .ok := by decide +kernel

theorem witness_HostResetRestoresTheResetState : (abc.setPort [.reset, .readStatus]).port = .reset :: [.readStatus] := rfl

theorem witness_HostReadsReturnTheRegister :
    (abc.setPort [.readStatus]).port = .readStatus :: [] ∧
    (let s := (abc.writeResult 9#64).setPort [.readResult]
     s.result = some 9#64 ∧ s.port = .readResult :: []) ∧
    (let s := (abc.writeResult 9#64).setPort [.readResultBytes .big]
     s.result = some 9#64 ∧ s.port = .readResultBytes .big :: []) ∧
    (let s := about (.readResultBytes .big)
     s.result = none ∧ s.port = .readResultBytes .big :: []) ∧
    (about .readResult).result = none := by decide

/-- The whole of a full buffer, one byte at each end, and nothing at the end. -/
theorem witness_ReadsAreLittleEndian :
    Memory.Holds ((List.range 32).zip (pattern 32)) (pattern 32) ∧ (pattern 32).length ≤ 32 ∧
    0 + 32 ≤ (pattern 32).length ∧ 31 + 1 ≤ (pattern 32).length ∧ 32 + 0 ≤ (pattern 32).length := by
  unfold Memory.Holds
  decide +kernel

theorem witness_NarrowReadsAreBitsOfWideReads :
    memRead (.input (pattern 16)) 8 8 = .ok 0x0F0E0D0C0B0A0908 ∧ memRead (.input (pattern 16)) 8 4 = .ok 0x0B0A0908 ∧
    memRead (.input (pattern 16)) (8 + 7) 1 = .ok 0x0F ∧ 8 + 8 ≤ (pattern 16).length := by decide +kernel

theorem witness_OutOfRangeReadFaults : (ByteSpace.input (pattern 3)).size < 0 + 4 ∧ (ByteSpace.input []).size < 0 + 1 ∧
    (ByteSpace.buf []).size < 32 + 1 := by decide

theorem witness_BufWriteReadsBack :
    Memory.wf [(0, 1#8)] ∧ 31 < 32 ∧ memWrite [(0, 1#8)] 31 2#8 = .ok [(0, 1#8), (31, 2#8)] ∧
    memWrite [(0, 1#8)] 32 2#8 = .error .bufWriteOutOfRange := by decide

/-- An empty, a nearly full and a full buffer. -/
theorem witness_ConsumeCopiesWhatFits :
    (streaming foxV 64#64 []).sBufLen = some (BitVec.ofNat 6 0) ∧
    (streaming foxV 63#64 (pattern 31)).sBufLen = some (BitVec.ofNat 6 31) ∧
    (streaming foxV 64#64 (pattern 32)).sBufLen = some (BitVec.ofNat 6 32) ∧ 32 ≤ 32 := by decide +kernel

/-- Both sides of the path test. -/
theorem witness_Hash32PathStripesAndLength : (pattern 15).length < 16 ∧ 16 ≤ (pattern 16).length := by decide +kernel

theorem witness_Hash32DependsOnItsOperandsAlone :
    (0xFFFFFFFF_00000000#64).toNat % 2 ^ 32 = (0#64).toNat % 2 ^ 32 := by decide

/-- Both sides of the path test, and tails with and without a 4-byte step. -/
theorem witness_Hash64PathStripesAndLength : (pattern 31).length < 32 ∧ 32 ≤ (pattern 32).length ∧
    (pattern 11).length % 8 < 4 ∧ 4 ≤ (pattern 12).length % 8 := by decide +kernel

theorem witness_InitAbandonsTheLiveStream : Inv abc ∧ abc.sv = true := ⟨abc_inv, rfl⟩

theorem witness_StreamCommandsNeedAStream : State.reset.sv = false ∧
    seen State.sv (exec (.s64Init 0#64 []) State.reset) = some true ∧
    seen State.sv (exec (.s64Append 0#64 []) State.reset) = some false := by decide

/-- The first length past the limit. -/
theorem witness_AppendPastTheLimitIsRefused : nearLimit.sv = true ∧
    nearLimit.sTotal = some (BitVec.ofNat 64 (2 ^ 64 - 2)) ∧
    (BitVec.ofNat 64 (2 ^ 64 - 2)).toNat + (pattern 2).length > 2 ^ 64 - 1 := by decide +kernel

/-- Each of the three error codes. -/
theorem witness_ErrorsAreAllOrNothing :
    seen State.code (runCommand ⟨0x05#8, 0#64, []⟩ abc) = some .errIllegal ∧
    seen State.code (runCommand ⟨0x03#8, 0#64, []⟩ State.reset) = some .errNoStream ∧
    seen State.code (runCommand ⟨0x03#8, 0#64, pattern 2⟩ nearLimit) = some .errLength := by decide +kernel

/-- States that meet the hypotheses, and each clause at its edge. -/
theorem witness_CompletionCodeByPriority :
    (Inv abc ∧ Inv nearLimit ∧ Inv State.reset) ∧
    (seen State.code (runCommand ⟨0x07#8, 0#64, []⟩ State.reset) = some .errIllegal ∧
      seen State.code (runCommand ⟨0x0B#8, 0#64, pattern 2⟩ nearLimit) = some .errIllegal) ∧
    (seen State.code (runCommand ⟨0x03#8, 0#64, []⟩ State.reset) = some .errNoStream ∧
      seen State.code (runCommand ⟨0x04#8, 0#64, []⟩ State.reset) = some .errNoStream) ∧
    seen State.code (runCommand ⟨0x03#8, 0#64, pattern 2⟩ nearLimit) = some .errLength ∧
    seen State.code (runCommand ⟨0x03#8, 0#64, pattern 1⟩ nearLimit) = some .ok :=
  ⟨⟨abc_inv, nearLimit_inv, reset_inv⟩, by decide +kernel⟩

/-- The greatest length that fits, and an empty append. -/
theorem witness_AppendAbsorbsItsData : nearLimit.sv = true ∧
    LiveAt nearLimit foxV (BitVec.ofNat 64 (2 ^ 64 - 2)) (pattern 30) ∧
    (BitVec.ofNat 64 (2 ^ 64 - 2)).toNat + (pattern 1).length ≤ 2 ^ 64 - 1 ∧
    (BitVec.ofNat 64 (2 ^ 64 - 2)).toNat + (pattern 0).length ≤ 2 ^ 64 - 1 :=
  ⟨rfl, nearLimit_liveAt, by decide +kernel, by decide +kernel⟩

theorem witness_EmptyAppendOnlyClearsFv : (abc.writeFv true).sv = true ∧ (abc.writeFv true).sTotal = some 3#64 := by decide

/-- Both entry paths. -/
theorem witness_FinalHashesTheStreamRegisters :
    (abc.sv = true ∧ abc.sSeed = some 0#64 ∧ LiveAt abc (init64 0#64) 3#64 (ascii "abc")) ∧
    (nearLimit.sv = true ∧ nearLimit.sSeed = some 0#64 ∧
      LiveAt nearLimit foxV (BitVec.ofNat 64 (2 ^ 64 - 2)) (pattern 30)) ∧
    ¬ 32 ≤ (3#64).toNat ∧ 32 ≤ (BitVec.ofNat 64 (2 ^ 64 - 2)).toNat :=
  ⟨⟨rfl, rfl, abc_absorbed.liveAt⟩, ⟨rfl, rfl, nearLimit_liveAt⟩, by decide, by decide⟩

theorem witness_FinalIsRepeatable : Inv abc ∧ abc.sv = true ∧
    ∀ i ∈ [Instr.hash32 0#64 [], .s64Final 0#64 [], .hash64 0#64 []], isInit i = false ∧ isAppend i = false :=
  ⟨abc_inv, rfl, by decide⟩

theorem witness_AppendAfterFinalContinues : Inv nearLimit ∧ nearLimit.sv = true ∧
    nearLimit.sTotal = some (BitVec.ofNat 64 (2 ^ 64 - 2)) ∧
    (BitVec.ofNat 64 (2 ^ 64 - 2)).toNat + (pattern 1).length ≤ 2 ^ 64 - 1 :=
  ⟨nearLimit_inv, rfl, rfl, by decide +kernel⟩

theorem witness_AppendExtendsTheAbsorbedBytes : Absorbed abc 0#64 (ascii "abc") ∧
    (ascii "abc").length + (pattern 40).length ≤ 2 ^ 64 - 1 := ⟨abc_absorbed, by decide +kernel⟩

theorem witness_FinalIsXxh64OfTheAbsorbedBytes : Absorbed abc 0#64 (ascii "abc") := abc_absorbed

theorem witness_PartitionIndependence : abc.sBuf.wf ∧
    [pattern 20, [], [20#8, 21#8]].flatten = [[], pattern 21, [21#8]].flatten ∧
    [pattern 20, [], [20#8, 21#8]].flatten.length ≤ 2 ^ 64 - 1 := by decide +kernel

theorem witness_StreamEqualsOneShot :
    (∀ i ∈ [Instr.s64Append 0#64 (pattern 33), .hash32 0#64 [], .s64Final 0#64 [], .s64Append 0#64 []],
      isInit i = false) ∧
    (appendedBytes [.s64Append 0#64 (pattern 33), .hash32 0#64 [], .s64Final 0#64 [], .s64Append 0#64 []]).length ≤
      2 ^ 64 - 1 := by decide +kernel

/-- Every command completes somewhere, and the stream commands with an error too: the premise of the rules over all
commands (StreamStateMachine, OnlySuccessfulHashesWriteResult, OnlyInitWritesTheSeed, CommandsKeepWhatTheyDoNotName). -/
theorem witness_every_command_completes :
    (∀ i ∈ [Instr.hash32 0#64 [], .hash64 0#64 [], .s64Init 0#64 [], .s64Append 0#64 [], .s64Final 0#64 []],
      seen State.code (exec i abc) = some .ok) ∧
    ∀ i ∈ [Instr.s64Append 0#64 [], .s64Final 0#64 []], seen State.code (exec i State.reset) = some .errNoStream := by
  decide +kernel

theorem witness_StreamStateMachine :
    seen (fun t => (t.code, t.sv, t.fv)) (exec (.s64Final 0#64 []) abc) = some (.ok, true, true) ∧
    seen (fun t => (t.code, t.sv, t.fv)) (exec (.s64Final 0#64 []) State.reset) = some (.errNoStream, false, false) := by
  decide +kernel

theorem witness_OnlySuccessfulHashesWriteResult :
    (isInit (.hash32 0#64 []) = false ∧ isAppend (.hash32 0#64 []) = false ∧
      seen State.code (exec (.hash32 0#64 []) State.reset) = some .ok) ∧
    seen State.code (exec (.s64Final 0#64 []) State.reset) ≠ some .ok ∧ isInit (.s64Init 0#64 []) = true ∧
    isAppend (.s64Append 0#64 []) = true := by decide +kernel

theorem witness_OnlyInitWritesTheSeed : isInit (.s64Append 0#64 [1#8]) = false ∧
    seen State.sSeed (exec (.s64Append 0#64 [1#8]) abc) = some abc.sSeed := by decide +kernel

/-- Each clause: neither hash is a stream command, each is not the other, and S64_INIT and S64_APPEND are themselves. -/
theorem witness_CommandsKeepWhatTheyDoNotName :
    seen State.hostRead (exec (.hash64 1#64 []) abc) = some abc.hostRead ∧ isInit (.hash64 1#64 []) = false ∧
    isAppend (.hash64 1#64 []) = false ∧ isFinal (.hash64 1#64 []) = false ∧ isHash32 (.hash64 1#64 []) = false ∧
    isHash64 (.hash32 1#64 []) = false ∧ isInit (.s64Init 1#64 []) = true ∧ isAppend (.s64Append 1#64 []) = true := by
  decide +kernel

theorem witness_StepKeepsTheInvariant : Inv abc ∧ step abc = .next abc := ⟨abc_inv, rfl⟩

theorem witness_StepKeepsTheStreamHistory : HistoryInv abc ∧ step abc = .next abc :=
  ⟨⟨abc_inv, fun _ => ⟨_, _, abc_absorbed⟩⟩, rfl⟩

theorem witness_OnlyTheHostReadOfResultFaults : Inv (about .readResult) ∧
    step (about .readResult) = .fault (.noValue .result) :=
  ⟨⟨reset_inv.buf, reset_inv.live, reset_inv.off, reset_inv.finalized, rfl, rfl⟩, rfl⟩

theorem step_overlong (n : Nat) (h : 2 ^ 64 - 1 < n) :
    step (about (.command ⟨0#8, 0#64, List.replicate n 0#8⟩)) = .refused .dataTooLong := by
  show runCommand _ _ = _
  rw [runCommand, if_neg fun hw => absurd ((wellFormed_replicate n).1 hw) (by omega)]

theorem witness_OnlyOverlongDataIsRefused :
    step (about (.command ⟨0#8, 0#64, List.replicate (2 ^ 64) 0#8⟩)) = .refused .dataTooLong :=
  step_overlong (2 ^ 64) (by decide)

/-- A command, the two reads, reset, and nothing to do. -/
theorem witness_AllowedActionsProgress :
    (Inv abc ∧ ∀ a rest, abc.port = a :: rest → ActionAllowed abc a) ∧
    ActionAllowed abc (.command ⟨0xFF#8, 0#64, pattern 3⟩) ∧ ActionAllowed abc .readStatus ∧ ActionAllowed abc .reset ∧
    ActionAllowed (abc.writeResult 1#64) .readResult ∧ ActionAllowed (abc.writeResult 1#64) (.readResultBytes .little) :=
  ⟨⟨abc_inv, fun _ _ h => by cases h⟩, (by decide : (pattern 3).length ≤ maxData), trivial, trivial, by simp [ActionAllowed], by simp [ActionAllowed]⟩

end Sys2Proof.Tests
end

section
/-! PROOFS. The statements of 00_scope.md: the byte write of R18 and the bound of R12 on a transaction. -/

namespace Sys2Proof.Machine

/-- The byte write of R18 past the end of BUF (R276 (c)). -/
theorem memWrite_of_ge {m : Memory} {off : Nat} (h : Config.bufCap ≤ off) (b : U8) :
    memWrite m off b = .error .bufWriteOutOfRange := if_neg (by omega)

/-- Settles O17: below 32 the write is `Memory.write`, whose read-back, frame and canonical form are laws of BUF. -/
theorem bufWriteReadsBack : Obligations.BufWriteReadsBack := by
  intro m off b
  refine ⟨fun h => ⟨m.write off b, memWrite_of_lt h b, ?_, fun x hx => ?_, fun hm => Memory.wf_write hm h b⟩,
    fun h => memWrite_of_ge h b⟩
  · rw [Memory.read_write, if_pos rfl]
  · rw [Memory.read_write, if_neg hx]

/-- The port refuses a transaction for its length alone (R12). -/
theorem runCommand_eq_refused_iff {t : Transaction} {s : State} {r : Refusal} :
    runCommand t s = .refused r ↔ r = .dataTooLong ∧ ¬ t.WellFormed := by
  rcases runCommand_cases t s with ⟨h, hlen⟩ | ⟨hfit, ⟨i, -, h⟩ | ⟨-, h⟩⟩
  · rw [h, Host.Outcome.refused.injEq, and_iff_left hlen, eq_comm]
  · simp [h, exec_ne_refused, hfit]
  · simp [h, hfit]

/-- Of the host's actions only a command can be refused. -/
theorem hostAct_eq_refused_iff {a : HostAction} {s : State} {r : Refusal} :
    hostAct a s = .refused r ↔ r = .dataTooLong ∧ ∃ t, a = .command t ∧ ¬ t.WellFormed := by
  cases a with
  | command t => simp [hostAct, runCommand_eq_refused_iff]
  | readStatus => simp [hostAct, hostReadStatus]
  | readResult => simp [hostAct, hostReadResult]
  | readResultBytes layout => simp [hostAct, hostReadResultBytes]
  | reset => simp [hostAct]

/-- Settles O52, by the host's next action: an idle step is never refused, and an action only as a command whose DATA
is past R12's bound. -/
theorem onlyOverlongDataIsRefused : Obligations.OnlyOverlongDataIsRefused := by
  intro s r
  cases hport : s.port with
  | nil => simp [step, hport]
  | cons a rest =>
    have hstep : step s = hostAct a (s.setPort rest) := by rw [step, hport]
    have hbound (t : Transaction) : ¬ t.WellFormed ↔ 2 ^ 64 - 1 < t.data.length := Nat.not_le
    simp [hstep, hostAct_eq_refused_iff, hbound]

end Sys2Proof.Machine
end

section
/-! PROOFS. What STATUS and the host's reads show of a state (R33 to R35, R65 of 10_state.md). -/

namespace Sys2Proof.Machine

@[simp] theorem valueOf_some {α : Type} (r : Register) (v : α) : valueOf r (some v) = .ok v := rfl

@[simp] theorem valueOf_none {α : Type} (r : Register) : valueOf (α := α) r none = .error (.noValue r) := rfl

theorem toNat_append_eq_add {m n : Nat} (x : BitVec m) (y : BitVec n) :
    (x ++ y).toNat = 2 ^ n * x.toNat + y.toNat := by
  rw [BitVec.toNat_append, ← Nat.shiftLeft_add_eq_or_of_lt y.isLt, Nat.shiftLeft_eq, Nat.mul_comm]

theorem getLsbD_eq_of_div_mod {w i : Nat} {x : BitVec w} {b : Bool} (h : x.toNat / 2 ^ i % 2 = b.toNat) :
    x.getLsbD i = b := by
  rw [BitVec.getLsbD, Nat.testBit_eq_decide_div_mod_eq, h]
  cases b <;> rfl

/-- STATUS as a number (R34): FV at 2^4, SV at 2^3, CODE below. -/
theorem statusWord_toNat (s : State) :
    (statusWord s).toNat = 16 * s.fv.toNat + 8 * s.sv.toNat + s.code.toBits.toNat := by
  rw [statusWord, toNat_append_eq_add (0#3 ++ statusBit s.fv ++ statusBit s.sv) s.code.toBits,
    toNat_append_eq_add, toNat_append_eq_add]
  simp only [statusBit, BitVec.toNat_ofBool, BitVec.toNat_ofNat]
  omega

/-- Settles O11: every field is read off STATUS as the number `statusWord_toNat` gives. -/
theorem statusShowsCodeAndStreamBits : Obligations.StatusShowsCodeAndStreamBits := by
  intro s
  have hword := statusWord_toNat s
  have hsv := s.sv.toNat_lt
  have hfv := s.fv.toNat_lt
  have hcode := s.code.toBits.isLt
  refine ⟨?_, getLsbD_eq_of_div_mod (by omega), getLsbD_eq_of_div_mod (by omega), by omega⟩
  have hlow : (statusWord s).toNat % 8 = s.code.toBits.toNat := by omega
  rw [hlow]
  cases s.code <;> rfl

/-- With an action at the head of the host's list, the step is that action on the list without it. -/
theorem step_of_port {s : State} {a : HostAction} {rest : List HostAction} (h : s.port = a :: rest) :
    step s = hostAct a (s.setPort rest) := by
  rw [step, h]

theorem hostReadResult_of_some {s : State} {v : U64} (h : s.result = some v) :
    hostReadResult s = .next (s.setHostRead (.result v)) := by
  rw [hostReadResult, h]; rfl

theorem hostReadResult_of_none {s : State} (h : s.result = none) : hostReadResult s = .fault (.noValue .result) := by
  rw [hostReadResult, h]; rfl

theorem hostReadResultBytes_of_some {s : State} {v : U64} (layout : Config.ByteLayout) (h : s.result = some v) :
    hostReadResultBytes layout s = .next (s.setHostRead (.resultBytes (resultBytes layout v))) := by
  rw [hostReadResultBytes, h]; rfl

theorem hostReadResultBytes_of_none {s : State} (layout : Config.ByteLayout) (h : s.result = none) :
    hostReadResultBytes layout s = .fault (.noValue .result) := by
  rw [hostReadResultBytes, h]; rfl

/-- Settles O12: the step is the read itself, and a read writes `hostRead` alone or faults on an empty RESULT. -/
theorem hostReadsReturnTheRegister : Obligations.HostReadsReturnTheRegister := by
  intro s rest
  refine ⟨fun hport => step_of_port hport, fun v hv hport => ?_, fun v layout hv hport => ?_, ?_⟩
  · exact (step_of_port hport).trans (hostReadResult_of_some hv)
  · exact (step_of_port hport).trans (hostReadResultBytes_of_some layout hv)
  · rintro hnone (hport | ⟨layout, hport⟩)
    · exact (step_of_port hport).trans (hostReadResult_of_none hnone)
    · exact (step_of_port hport).trans (hostReadResultBytes_of_none layout hnone)

end Sys2Proof.Machine
end

section
/-! PROOFS. What a completed command leaves of the registers it does not name (R33, R37 to R44 of 10_state.md): read off
`exec_cases`, the one account of what a command can do. -/

namespace Sys2Proof.Machine

/-- The registers an append's loop writes, as values: the rest of the state is the old one. -/
theorem streamWritten.exists_eq {s t : State} (h : streamWritten s t) :
    ∃ v m n total, t = { s with sV := v, sBuf := m, sBufLen := n, sTotal := total } := ⟨_, _, _, _, h⟩

/-- Settles O44, by what the command can have done. -/
theorem streamStateMachine : Obligations.StreamStateMachine := by
  intro i s t h
  rcases exec_cases h with ⟨c, hc, rfl, -⟩ | ⟨seed, data, v, rfl, rfl⟩ | ⟨seed, data, v, rfl, rfl⟩ |
    ⟨seed, data, rfl, rfl⟩ | ⟨seed, data, u, rfl, hsv, -, hu, rfl⟩ | ⟨seed, data, v, rfl, hsv, rfl⟩
  · exact ⟨fun _ => ⟨rfl, rfl⟩, fun hok => absurd hok hc⟩
  · simp
  · simp
  · simp
  · obtain ⟨v, m, n, total, rfl⟩ := hu.exists_eq
    simp [hsv]
  · simp [hsv]

/-- Settles O45, by what the command can have done. -/
theorem onlySuccessfulHashesWriteResult : Obligations.OnlySuccessfulHashesWriteResult := by
  intro i s t h
  rcases exec_cases h with ⟨c, hc, rfl, -⟩ | ⟨seed, data, v, rfl, rfl⟩ | ⟨seed, data, v, rfl, rfl⟩ |
    ⟨seed, data, rfl, rfl⟩ | ⟨seed, data, u, rfl, -, -, hu, rfl⟩ | ⟨seed, data, v, rfl, -, rfl⟩
  · exact ⟨fun _ => rfl, fun hok => absurd hok.1 hc⟩
  · simp [isInit, isAppend]
  · simp [isInit, isAppend]
  · simp [isInit]
  · obtain ⟨v, m, n, total, rfl⟩ := hu.exists_eq
    simp [isAppend]
  · simp [isInit, isAppend]

/-- Settles O47, by what the command can have done. -/
theorem commandsKeepWhatTheyDoNotName : Obligations.CommandsKeepWhatTheyDoNotName := by
  intro i s t h
  rcases exec_cases h with ⟨c, -, rfl, -⟩ | ⟨seed, data, v, rfl, rfl⟩ | ⟨seed, data, v, rfl, rfl⟩ |
    ⟨seed, data, rfl, rfl⟩ | ⟨seed, data, u, rfl, -, -, hu, rfl⟩ | ⟨seed, data, v, rfl, -, rfl⟩
  · simp
  · simp [isHash32, isInit, isAppend]
  · simp [isHash64, isInit, isAppend]
  · simp [isInit]
  · obtain ⟨v, m, n, total, rfl⟩ := hu.exists_eq
    simp [isAppend, isFinal]
  · simp [isFinal, isInit, isAppend]

end Sys2Proof.Machine
end

section
/-! PROOFS. What a host action can do, and from it the one argument for all that every step keeps. -/

namespace Sys2Proof.Machine

/-- The state `t` is `s` but for CODE and the model's record of the host: all that an ILLEGAL command word, an error and a
host read can write, and the taking of an action from the host's list. -/
def recordWritten (s t : State) : Prop :=
  ∃ c as r, t = { s with code := c, port := as, hostRead := r }

theorem recordWritten_setPort (s : State) (as : List HostAction) : recordWritten s (s.setPort as) := ⟨_, _, _, rfl⟩

theorem recordWritten_setHostRead (s : State) (r : HostRead) : recordWritten s (s.setHostRead r) := ⟨_, _, _, rfl⟩

theorem recordWritten_raiseError (c : Code) (s : State) : recordWritten s (raiseError c s) := ⟨_, _, _, rfl⟩

theorem recordWritten_hostReset (s : State) : recordWritten State.reset (hostReset s) := ⟨_, _, _, rfl⟩

/-- Everything a host action that completes can have done. -/
theorem hostAct_cases {a : HostAction} {s t : State} (h : hostAct a s = .next t) :
    (∃ i, exec i s = .next t) ∨ recordWritten s t ∨ recordWritten State.reset t := by
  cases a with
  | command c =>
    rcases runCommand_cases c s with ⟨hc, -⟩ | ⟨-, ⟨i, -, hc⟩ | ⟨-, hc⟩⟩
    · exact absurd (hc.symm.trans h) (by simp)
    · exact .inl ⟨i, hc.symm.trans h⟩
    · cases hc.symm.trans h
      exact .inr (.inl (recordWritten_raiseError _ s))
  | readStatus =>
    cases h
    exact .inr (.inl (recordWritten_setHostRead s _))
  | readResult =>
    cases hv : s.result with
    | none => exact absurd ((hostReadResult_of_none hv).symm.trans h) (by simp)
    | some v =>
      cases (hostReadResult_of_some hv).symm.trans h
      exact .inr (.inl (recordWritten_setHostRead s _))
  | readResultBytes layout =>
    cases hv : s.result with
    | none => exact absurd ((hostReadResultBytes_of_none layout hv).symm.trans h) (by simp)
    | some v =>
      cases (hostReadResultBytes_of_some layout hv).symm.trans h
      exact .inr (.inl (recordWritten_setHostRead s _))
  | reset =>
    cases h
    exact .inr (.inr (recordWritten_hostReset s))

/-- What holds at reset, does not look at CODE or the host's record, and is kept by every command that completes, is kept
by every step. -/
theorem step_keeps {P : State → Prop} (hreset : P State.reset)
    (hrecord : ∀ {s t}, recordWritten s t → P s → P t)
    (hexec : ∀ {i s t}, exec i s = .next t → P s → P t)
    {s t : State} (hs : P s) (h : step s = .next t) : P t := by
  cases hport : s.port with
  | nil =>
    rw [step, hport] at h
    cases h
    exact hs
  | cons a rest =>
    rw [step_of_port hport] at h
    have hs' : P (s.setPort rest) := hrecord (recordWritten_setPort s rest) hs
    rcases hostAct_cases h with ⟨i, hi⟩ | ht | ht
    · exact hexec hi hs'
    · exact hrecord ht hs'
    · exact hrecord ht hreset

end Sys2Proof.Machine
end

section
/-! PROOFS. The invariant and the stream history of R45: they hold at reset, and every command that completes keeps them. -/

namespace Sys2Proof.Machine

open Config

/-- The two states hold the same stream: SV and every register of R40 to R44. -/
structure SameStream (s t : State) : Prop where
  sv : t.sv = s.sv
  sSeed : t.sSeed = s.sSeed
  sV : t.sV = s.sV
  sBuf : t.sBuf = s.sBuf
  sBufLen : t.sBufLen = s.sBufLen
  sTotal : t.sTotal = s.sTotal

section
variable {s t : State} (h : SameStream s t)
include h

theorem SameStream.streamLive (hs : StreamLive s) : StreamLive t := by
  obtain ⟨-, hseed, hv, hbuf, hlen, htotal⟩ := h
  rwa [StreamLive, hseed, hv, hbuf, hlen, htotal]

theorem SameStream.streamNone (hs : StreamNone s) : StreamNone t := by
  obtain ⟨-, hseed, hv, hbuf, hlen, htotal⟩ := h
  rwa [StreamNone, hseed, hv, hbuf, hlen, htotal]

theorem SameStream.absorbed {seed : U64} {bs : List U8} (hs : Absorbed s seed bs) : Absorbed t seed bs where
  sv := h.sv.trans hs.sv
  sSeed := h.sSeed.trans hs.sSeed
  short := hs.short
  sTotal := h.sTotal.trans hs.sTotal
  sBufLen := h.sBufLen.trans hs.sBufLen
  sV := h.sV.trans hs.sV
  sBuf := h.sBuf ▸ hs.sBuf

/-- What the invariant asks beyond the stream: FV (R39) and the engine registers (R46, R47). -/
theorem SameStream.inv (hs : Inv s) (hfv : t.fv = true → t.sv = true ∧ t.result ≠ none) (h32 : t.e32 = none)
    (h64 : t.e64 = none) : Inv t where
  buf := h.sBuf ▸ hs.buf
  live hsv := h.streamLive (hs.live (h.sv ▸ hsv))
  off hsv := h.streamNone (hs.off (h.sv ▸ hsv))
  finalized := hfv
  engine32 := h32
  engine64 := h64

end

theorem recordWritten.sameStream {s t : State} (h : recordWritten s t) : SameStream s t := by
  obtain ⟨c, as, r, rfl⟩ := h
  exact ⟨rfl, rfl, rfl, rfl, rfl, rfl⟩

theorem recordWritten.inv {s t : State} (h : recordWritten s t) (hs : Inv s) : Inv t := by
  obtain ⟨c, as, r, rfl⟩ := h
  exact ⟨hs.buf, hs.live, hs.off, hs.finalized, hs.engine32, hs.engine64⟩

theorem sameStream_raiseError (c : Code) (s : State) : SameStream s (raiseError c s) := ⟨rfl, rfl, rfl, rfl, rfl, rfl⟩

theorem sameStream_hash32 (s : State) (v : U64) : SameStream s (finish .ok ((s.writeResult v).setE32 none)) :=
  ⟨rfl, rfl, rfl, rfl, rfl, rfl⟩

theorem sameStream_hash64 (s : State) (v : U64) : SameStream s (finish .ok ((s.writeResult v).setE64 none)) :=
  ⟨rfl, rfl, rfl, rfl, rfl, rfl⟩

theorem sameStream_final (s : State) (v : U64) : SameStream s (finish .ok ((s.writeResult v).writeFv true)) :=
  ⟨rfl, rfl, rfl, rfl, rfl, rfl⟩

theorem sameStream_finish_writeFv (c : Code) (b : Bool) (s : State) : SameStream s (finish c (s.writeFv b)) :=
  ⟨rfl, rfl, rfl, rfl, rfl, rfl⟩

/-! ## A live stream through the loop of S64_APPEND -/

/-- A live stream stays live through the loop, with the registers of R231 and R232. -/
theorem LiveAt.absorb {s : State} {v : Quad 64} {total : U64} {held : List U8} (h : LiveAt s v total held)
    (data : List U8) :
    ∃ u, absorb data.length data s = .ok u ∧ (s.sBuf.wf → u.sBuf.wf) ∧
      LiveAt u (stripes64Of ((held.length + data.length) / 32) v (held ++ data)) (total + BitVec.ofNat 64 data.length)
        ((held ++ data).drop (32 * ((held.length + data.length) / 32))) := by
  obtain ⟨m, hu, hwf, hm⟩ := absorb_spec data.length h le_rfl
  have hleft : ((held ++ data).drop (32 * ((held.length + data.length) / 32))).length =
      (held.length + data.length) % 32 := by
    rw [List.length_drop, List.length_append]
    omega
  refine ⟨_, hu, hwf, rfl, rfl, by rw [hleft], ?_, hm.holds h.holds h.lt⟩
  rw [hleft]
  exact Nat.mod_lt _ (by decide)

/-- R45 from the registers of a live stream: the converse of `StreamLive.liveAt`. -/
theorem LiveAt.streamLive {s : State} {seed : U64} {v : Quad 64} {total : U64} {held : List U8}
    (h : LiveAt s v total held) (hseed : s.sSeed = some seed) (hlen : held.length = total.toNat % 32) :
    StreamLive s := by
  have hnat : (BitVec.ofNat 6 held.length).toNat = held.length := toNat_ofNat6 h.lt.le
  refine ⟨seed, v, total, _, hseed, h.sV, h.sTotal, h.sBufLen, hnat.trans hlen, fun i hi => ?_⟩
  rw [hnat] at hi
  exact ⟨held[i], (h.holds i hi).trans (List.getElem?_eq_getElem hi)⟩

theorem StreamLive.absorb {s : State} (h : StreamLive s) (data : List U8) :
    ∃ u, absorb data.length data s = .ok u ∧ (s.sBuf.wf → u.sBuf.wf) ∧ StreamLive u := by
  obtain ⟨seed, v, total, held, hseed, hlive, hlen⟩ := h.liveAt
  obtain ⟨u, hu, hwf, hlive'⟩ := hlive.absorb data
  obtain ⟨_, _, _, _, rfl⟩ := (absorb_frame _ hu).exists_eq
  refine ⟨_, hu, hwf, hlive'.streamLive hseed ?_⟩
  rw [List.length_drop, List.length_append, BitVec.toNat_add, BitVec.toNat_ofNat]
  omega

/-- The loop adds its bytes to those absorbed (R45, R235), as long as S_TOTAL does not wrap (R44). -/
theorem Absorbed.absorb {s : State} {seed : U64} {bs : List U8} (h : Absorbed s seed bs) {data : List U8}
    (hfits : bs.length + data.length ≤ maxTotal) :
    ∃ u, absorb data.length data s = .ok u ∧ Absorbed u seed (bs ++ data) := by
  obtain ⟨u, hu, -, hV, hTotal, hLen, -, hBuf⟩ := h.liveAt.absorb data
  obtain ⟨_, _, _, _, rfl⟩ := (absorb_frame _ hu).exists_eq
  set q := bs.length / 32 with hq
  have hcover : bs.drop (32 * q) ++ data = (bs ++ data).drop (32 * q) :=
    (List.drop_append_of_le_length (by omega)).symm
  have hchunks : (bs ++ data).length / 32 = q + ((bs.drop (32 * q)).length + data.length) / 32 := by
    rw [List.length_append, List.length_drop]
    omega
  refine ⟨_, hu, h.sv, h.sSeed, ?_, ?_, ?_, ?_, ?_⟩
  · rwa [List.length_append]
  · rw [hTotal, List.length_append, BitVec.ofNat_add]
  · rw [hLen, List.length_drop, List.length_append, List.length_append, List.length_drop]
    congr 2
    simp only [chunk64]
    omega
  · rw [hV, show chunk64 = 32 from rfl, hchunks, stripes64Of_add,
      stripes64Of_append q _ (bs := bs) (by simp only [chunk64]; omega), hcover]
    rfl
  · rw [show chunk64 = 32 from rfl, hchunks, Nat.mul_add, ← List.drop_drop, ← hcover]
    exact hBuf

theorem Absorbed.streamLive {s : State} {seed : U64} {bs : List U8} (h : Absorbed s seed bs) : StreamLive s := by
  refine h.liveAt.streamLive h.sSeed ?_
  rw [List.length_drop, BitVec.toNat_ofNat]
  omega

/-- A stream just started has absorbed nothing (R228). -/
theorem absorbed_started (s : State) (seed : U64) :
    Absorbed (finish .ok (((((((s.writeSeed seed).writeV (init64 seed)).writeBufLen 0#6).writeTotal 0#64).writeSv
      true).writeFv false))) seed [] :=
  ⟨rfl, rfl, Nat.zero_le _, rfl, rfl, rfl, fun i hi => absurd hi (Nat.not_lt_zero i)⟩

/-! ## Reset -/

theorem inv_reset : Inv State.reset where
  buf := Memory.wf_nil
  live h := by cases h
  off _ := ⟨rfl, rfl, rfl, rfl, rfl⟩
  finalized h := by cases h
  engine32 := rfl
  engine64 := rfl

/-- Settles O48: at reset SV = 0, so the history asks nothing more than the invariant. -/
theorem resetMeetsTheInvariant : Obligations.ResetMeetsTheInvariant :=
  ⟨inv_reset, fun h => by cases h⟩

/-! ## The commands -/

/-- Every command that completes keeps the invariant. -/
theorem exec_keeps_inv {i : Instr} {s t : State} (h : exec i s = .next t) (hs : Inv s) : Inv t := by
  rcases exec_cases h with ⟨c, -, rfl, -⟩ | ⟨seed, data, v, rfl, rfl⟩ | ⟨seed, data, v, rfl, rfl⟩ |
    ⟨seed, data, rfl, rfl⟩ | ⟨seed, data, u, rfl, hsv, hu, -, rfl⟩ | ⟨seed, data, v, rfl, hsv, rfl⟩
  · exact (recordWritten_raiseError c s).inv hs
  · exact (sameStream_hash32 s v).inv hs (fun hfv => ⟨(hs.finalized hfv).1, by simp⟩) rfl hs.engine64
  · exact (sameStream_hash64 s v).inv hs (fun hfv => ⟨(hs.finalized hfv).1, by simp⟩) hs.engine32 rfl
  · exact {
      buf := hs.buf
      live := fun _ => (absorbed_started s seed).streamLive
      off := fun h => by cases h
      finalized := fun h => by cases h
      engine32 := hs.engine32
      engine64 := hs.engine64 }
  · obtain ⟨u', hu', hwf, hlive⟩ := (hs.live hsv).absorb data
    cases hu.symm.trans hu'
    obtain ⟨_, _, _, _, rfl⟩ := (absorb_frame _ hu).exists_eq
    exact {
      buf := hwf hs.buf
      live := fun _ => (sameStream_finish_writeFv .ok false _).streamLive hlive
      off := fun h => absurd (hsv.symm.trans h) (by decide)
      finalized := fun h => by cases h
      engine32 := hs.engine32
      engine64 := hs.engine64 }
  · exact (sameStream_final s v).inv hs (fun _ => ⟨hsv, by simp⟩) hs.engine32 hs.engine64

/-- ERR_LENGTH (R265): an append that would carry S_TOTAL past 2^64 − 1. -/
theorem exec_append_past {s : State} {total : U64} {data : List U8} (seed : U64) (hs : s.sv = true)
    (ht : s.sTotal = some total) (hl : maxTotal < total.toNat + data.length) :
    exec (.s64Append seed data) s = .next (raiseError .errLength s) := by
  rw [exec, execS64Append, if_neg (by simp [hs]), readTotal, ht, valueOf_some]
  simp only [bind, Except.bind]
  rw [if_pos hl]
  rfl

/-- An append that succeeds had room for its bytes (R44, R265). -/
theorem append_fits {s t : State} {seed total : U64} {data : List U8} (h : exec (.s64Append seed data) s = .next t)
    (hok : t.code = .ok) (hs : s.sv = true) (ht : s.sTotal = some total) : total.toNat + data.length ≤ maxTotal := by
  by_contra hl
  cases h.symm.trans (exec_append_past seed hs ht (by omega))
  cases hok

/-- Every command that completes keeps the stream history: S64_INIT starts one, S64_APPEND extends it, and no other
command touches the stream. -/
theorem exec_keeps_history {i : Instr} {s t : State} (h : exec i s = .next t)
    (hs : s.sv = true → ∃ seed bs, Absorbed s seed bs) : t.sv = true → ∃ seed bs, Absorbed t seed bs := by
  have hsame (hst : SameStream s t) : t.sv = true → ∃ seed bs, Absorbed t seed bs := fun hsv => by
    obtain ⟨seed, bs, hbs⟩ := hs (hst.sv ▸ hsv)
    exact ⟨seed, bs, hst.absorbed hbs⟩
  rcases exec_cases h with ⟨c, -, rfl, -⟩ | ⟨seed, data, v, rfl, rfl⟩ | ⟨seed, data, v, rfl, rfl⟩ |
    ⟨seed, data, rfl, rfl⟩ | ⟨x, data, u, rfl, hsv, hu, -, rfl⟩ | ⟨seed, data, v, rfl, -, rfl⟩
  · exact hsame (sameStream_raiseError c s)
  · exact hsame (sameStream_hash32 s v)
  · exact hsame (sameStream_hash64 s v)
  · exact fun _ => ⟨seed, [], absorbed_started s seed⟩
  · obtain ⟨seed, bs, hbs⟩ := hs hsv
    have hfits := append_fits h rfl hsv hbs.sTotal
    rw [BitVec.toNat_ofNat, Nat.mod_eq_of_lt (Nat.lt_of_le_pred (by decide) hbs.short)] at hfits
    obtain ⟨u', hu', habs⟩ := hbs.absorb hfits
    cases hu.symm.trans hu'
    exact fun _ => ⟨seed, bs ++ data, (sameStream_finish_writeFv .ok false u).absorbed habs⟩
  · exact hsame (sameStream_final s v)

/-- Settles O49: the invariant holds at reset, and every command keeps it. -/
theorem stepKeepsTheInvariant : Obligations.StepKeepsTheInvariant :=
  fun _ _ hs h => step_keeps inv_reset recordWritten.inv exec_keeps_inv hs h

theorem recordWritten.historyInv {s t : State} (h : recordWritten s t) (hs : HistoryInv s) : HistoryInv t := by
  refine ⟨h.inv hs.1, fun hsv => ?_⟩
  obtain ⟨seed, bs, hbs⟩ := hs.2 (h.sameStream.sv ▸ hsv)
  exact ⟨seed, bs, h.sameStream.absorbed hbs⟩

/-- Settles O50: the history holds at reset, and every command keeps it. -/
theorem stepKeepsTheStreamHistory : Obligations.StepKeepsTheStreamHistory :=
  fun _ _ hs h => step_keeps resetMeetsTheInvariant recordWritten.historyInv
    (fun hi hs => ⟨exec_keeps_inv hi hs.1, exec_keeps_history hi hs.2⟩) hs h

end Sys2Proof.Machine
end

section
/-! PROOFS. Every command completes in a good state, so every list of commands from reset does (R51). -/

namespace Sys2Proof.Machine

open Config

theorem exec_hash32 (seed : U64) (data : List U8) (s : State) :
    exec (.hash32 seed data) s = .next (finish .ok ((s.writeResult (zext64 (xxh32 (seed32 seed) data))).setE32 none)) := by
  obtain ⟨e, he, -, hh⟩ := engine32_spec (seed32 seed) data
  rw [exec, execHash32, inputSpace, he, ← hh]
  rfl

theorem exec_hash64 (seed : U64) (data : List U8) (s : State) :
    exec (.hash64 seed data) s = .next (finish .ok ((s.writeResult (xxh64 seed data)).setE64 none)) := by
  obtain ⟨e, he, -, hh⟩ := engine64_spec (seed64 seed) data
  rw [exec, execHash64, inputSpace, he, show xxh64 seed data = avalanche64 e.h from hh.symm]
  rfl

/-- The stream commands without a stream (R263). -/
theorem exec_append_noStream {s : State} (hs : s.sv = false) (seed : U64) (data : List U8) :
    exec (.s64Append seed data) s = .next (raiseError .errNoStream s) := by
  rw [exec, execS64Append, if_pos hs]
  rfl

theorem exec_final_noStream {s : State} (hs : s.sv = false) (seed : U64) (data : List U8) :
    exec (.s64Final seed data) s = .next (raiseError .errNoStream s) := by
  rw [exec, execS64Final, if_pos hs]
  rfl

/-- The entry path of R236 on a live stream. -/
theorem finalBase_of {s : State} {seed : U64} {v : Quad 64} (hseed : s.sSeed = some seed) (hv : s.sV = some v)
    (total : U64) :
    finalBase s total = .ok (if chunk64 ≤ total.toNat then converge64 v else seed + p64_5) := by
  rw [finalBase, readV, readSeed, hv, hseed]
  split_ifs <;> rfl

/-- S64_FINAL on a live stream (R236): the hash of what its registers hold. -/
theorem exec_final_of {s : State} {seed : U64} {v : Quad 64} {total : U64} {held : List U8} (hs : s.sv = true)
    (hseed : s.sSeed = some seed) (h : LiveAt s v total held) (x : U64) (data : List U8) :
    exec (.s64Final x data) s = .next (finish .ok ((s.writeResult (avalanche64 (hashTail64
      ((if chunk64 ≤ total.toNat then converge64 v else seed + p64_5) + total) held))).writeFv true)) :=
  execS64Final_of x data hs h.sTotal (finalBase_of hseed h.sV total) (readBufLen_of h.sBufLen h.lt.le)
    (finalTail_of h _)

/-- No command faults in a good state. -/
theorem exec_completes {s : State} (hs : Inv s) (i : Instr) : ∃ t, exec i s = .next t := by
  cases i with
  | hash32 seed data => exact ⟨_, exec_hash32 seed data s⟩
  | hash64 seed data => exact ⟨_, exec_hash64 seed data s⟩
  | s64Init seed data => exact ⟨_, rfl⟩
  | s64Append x data =>
    cases hsv : s.sv with
    | false => exact ⟨_, exec_append_noStream hsv x data⟩
    | true =>
      obtain ⟨u, hu, -, -⟩ := (hs.live hsv).absorb data
      obtain ⟨_, _, total, _, -, -, htotal, -⟩ := hs.live hsv
      rcases le_or_gt (total.toNat + data.length) maxTotal with hfits | hpast
      · exact ⟨_, execS64Append_of x hsv htotal hfits hu⟩
      · exact ⟨_, exec_append_past x hsv htotal hpast⟩
  | s64Final x data =>
    cases hsv : s.sv with
    | false => exact ⟨_, exec_final_noStream hsv x data⟩
    | true =>
      obtain ⟨seed, v, total, held, hseed, hlive, -⟩ := (hs.live hsv).liveAt
      exact ⟨_, exec_final_of hsv hseed hlive x data⟩

theorem execAll_cons_of_next {i : Instr} {s t : State} (h : exec i s = .next t) (is : List Instr) :
    execAll (i :: is) s = execAll is t := by
  rw [execAll, h]

/-- No list of commands faults from a good state. -/
theorem execAll_completes {s : State} (hs : Inv s) (is : List Instr) : ∃ t, execAll is s = .next t := by
  induction is generalizing s with
  | nil => exact ⟨s, rfl⟩
  | cons i is ih =>
    obtain ⟨t, ht⟩ := exec_completes hs i
    rw [execAll_cons_of_next ht]
    exact ih (exec_keeps_inv ht hs)

/-- Settles O9: the reset values are the definition's, a read of no value faults by `valueOf`, and from reset, a good
state, every list of commands completes. -/
theorem resetHoldsTheSpecValues : Obligations.ResetHoldsTheSpecValues := by
  refine ⟨⟨rfl, rfl, rfl, rfl⟩, ⟨rfl, rfl, rfl, fun _ => rfl, rfl, rfl, rfl, rfl⟩, fun s => ?_,
    execAll_completes inv_reset⟩
  refine ⟨hostReadResult_of_none, fun h => ?_, fun h => ?_, fun h => ?_, fun h => ?_, fun h => ?_, fun h => ?_,
    fun off (hoff : off < bufCap) h => ?_⟩
  · rw [readSeed, h, valueOf_none]
  · rw [readV, h, valueOf_none]
  · rw [readBufLen, h, valueOf_none]
  · rw [readTotal, h, valueOf_none]
  · rw [readE32, h, valueOf_none]
  · rw [readE64, h, valueOf_none]
  · rw [ByteSpace.byteAt, if_pos hoff, h, valueOf_none]

end Sys2Proof.Machine
end

section
/-! PROOFS. The statements of 20_memory.md: little-endian reads of a byte space at any offset (R62 to R64), the bytes of
RESULT (R65), and the step as the whole of a command (R70). -/

namespace Sys2Proof.Machine

/-! ## The number a byte list spells -/

theorem leNat_eq_ofDigits (bs : List U8) : leNat bs = Nat.ofDigits (2 ^ 8) (bs.map BitVec.toNat) := by
  induction bs with
  | nil => rfl
  | cons b bs ih =>
    rw [leNat, ih, List.map_cons, Nat.ofDigits_cons]
    norm_num

theorem lt_of_mem_map_toNat {bs : List U8} {d : Nat} (h : d ∈ bs.map BitVec.toNat) : d < 2 ^ 8 := by
  obtain ⟨b, -, rfl⟩ := List.mem_map.1 h
  exact b.isLt

theorem leNat_append (bs cs : List U8) : leNat (bs ++ cs) = leNat bs + 2 ^ (8 * bs.length) * leNat cs := by
  simp only [leNat_eq_ofDigits, List.map_append, Nat.ofDigits_append, List.length_map, pow_mul]

theorem leNat_take (bs : List U8) (n : Nat) : leNat (bs.take n) = leNat bs % 2 ^ (8 * n) := by
  rw [leNat_eq_ofDigits, leNat_eq_ofDigits, pow_mul, List.map_take,
    Nat.ofDigits_mod_pow_eq_ofDigits_take n (by decide) _ fun _ => lt_of_mem_map_toNat]

theorem leNat_drop (bs : List U8) (k : Nat) : leNat (bs.drop k) = leNat bs / 2 ^ (8 * k) := by
  rw [leNat_eq_ofDigits, leNat_eq_ofDigits, pow_mul, List.map_drop,
    Nat.ofDigits_div_pow_eq_ofDigits_drop k (by decide) _ fun _ => lt_of_mem_map_toNat]

/-- The sum of R62, over the bytes of a list from `off` on. -/
theorem leNat_slice {bs : List U8} {off n : Nat} (h : off + n ≤ bs.length) :
    leNat ((bs.drop off).take n) =
      ((List.range n).map fun i => (bs.getD (off + i) 0#8).toNat * 2 ^ (8 * i)).sum := by
  rw [leNat_eq_ofDigits, Nat.ofDigits_eq_sum_mapIdx]
  congr 1
  refine List.ext_getElem (by simpa using by omega) fun i _ hi => ?_
  have hin : i < n := by simpa using hi
  simp [pow_mul, show off + i < bs.length by omega]

/-! ## Reads of a byte space -/

/-- Reading part of the bytes shown reads that field of the number they spell (R63). -/
theorem memRead_field_of_shows {S : ByteSpace} {p k n : Nat} {bs : List U8} (h : Shows S p bs)
    (hn : k + n ≤ bs.length) : memRead S (p + k) n = .ok (leNat bs / 2 ^ (8 * k) % 2 ^ (8 * n)) := by
  rw [memRead_of_shows (h.drop (by omega)) (by rw [List.length_drop]; omega), leNat_take, leNat_drop]

theorem Shows.cons {S : ByteSpace} {p : Nat} {b : U8} {bs : List U8} (hb : S.byteAt p = .ok b)
    (h : Shows S (p + 1) bs) : Shows S p (b :: bs) where
  inRange := by have := h.inRange; rw [List.length_cons]; omega
  reads
    | 0, _ => hb
    | i + 1, hi => by simpa [Nat.add_assoc, Nat.add_comm 1] using h.reads i (Nat.lt_of_succ_lt_succ hi)

/-- A sum that answers has its bytes behind it: the converse of `leSum_of_shows`. -/
theorem shows_of_leSum {S : ByteSpace} {p n v : Nat} (hin : p + n ≤ S.size) (h : leSum S p n = .ok v) :
    ∃ bs, Shows S p bs ∧ bs.length = n ∧ leNat bs = v := by
  induction n generalizing p v with
  | zero =>
    cases h
    exact ⟨[], ⟨hin, fun _ hi => absurd hi (Nat.not_lt_zero _)⟩, rfl, rfl⟩
  | succ n ih =>
    simp only [leSum, bind_eq_ok, Except.ok.injEq] at h
    obtain ⟨b, hb, rest, hrest, rfl⟩ := h
    obtain ⟨bs, hbs, rfl, rfl⟩ := ih (by omega) hrest
    exact ⟨b :: bs, hbs.cons hb, rfl, rfl⟩

/-- A read that answers has its bytes behind it: the converse of `memRead_of_shows`. -/
theorem shows_of_memRead {S : ByteSpace} {p n v : Nat} (h : memRead S p n = .ok v) :
    ∃ bs, Shows S p bs ∧ bs.length = n ∧ leNat bs = v := by
  rw [memRead] at h
  split_ifs at h with hin
  exact shows_of_leSum hin h

/-- The range check of R64. -/
theorem memRead_of_size_lt {S : ByteSpace} {off n : Nat} (h : S.size < off + n) :
    memRead S off n = .error .readOutOfRange := if_neg (Nat.not_le.2 h)

theorem memRead_input {data : List U8} {off n : Nat} (h : off + n ≤ data.length) :
    memRead (.input data) off n = .ok (leNat ((data.drop off).take n)) :=
  memRead_of_shows (shows_input data (by omega)) (by rw [List.length_drop]; omega)

theorem memRead_buf {m : Memory} {bs : List U8} {off n : Nat} (hm : m.Holds bs) (hl : bs.length ≤ Config.bufCap)
    (h : off + n ≤ bs.length) : memRead (.buf m) off n = .ok (leNat ((bs.drop off).take n)) := by
  have hshows := (shows_buf hm hl).drop (k := off) (by omega)
  rw [Nat.zero_add] at hshows
  exact memRead_of_shows hshows (by rw [List.length_drop]; omega)

/-- Settles O14: in either space the read spells the bytes from `off` on, which is the sum of R62. -/
theorem readsAreLittleEndian : Obligations.ReadsAreLittleEndian := by
  refine ⟨fun data off n h => ?_, fun m bs off n hm hl h => ?_⟩
  · rw [memRead_input h, leNat_slice h]
  · rw [memRead_buf hm hl h, leNat_slice h]

/-- Settles O15: the wide read has its bytes behind it, and each narrow read is a field of the number they spell. -/
theorem narrowReadsAreBitsOfWideReads : Obligations.NarrowReadsAreBitsOfWideReads := by
  refine ⟨fun S off v h => ?_, fun data off n h => ⟨_, memRead_input h⟩⟩
  obtain ⟨bs, hbs, hlen, rfl⟩ := shows_of_memRead h
  refine ⟨?_, fun k hk => memRead_field_of_shows hbs (by omega)⟩
  simpa using memRead_field_of_shows hbs (k := 0) (n := 4) (by omega)

/-- Settles O16, by the range check of `memRead`. -/
theorem outOfRangeReadFaults : Obligations.OutOfRangeReadFaults := fun _ _ _ => memRead_of_size_lt

/-! ## The bytes of RESULT -/

theorem byteOf_toNat (v : U64) (k : Nat) : (byteOf v k).toNat = v.toNat / 2 ^ (8 * k) % 2 ^ 8 := by
  rw [byteOf, BitVec.extractLsb'_toNat, Nat.shiftRight_eq_div_pow]

/-- The low `n` bytes of a number, least significant first, spell its low `8 * n` bits. -/
theorem leNat_map_byteOf (v : U64) (n : Nat) : leNat ((List.range n).map (byteOf v)) = v.toNat % 2 ^ (8 * n) := by
  induction n with
  | zero => rw [Nat.mul_zero, pow_zero, Nat.mod_one]; rfl
  | succ n ih =>
    rw [List.range_succ, List.map_append, leNat_append, ih, List.length_map, List.length_range, Nat.mul_succ, pow_add,
      Nat.mod_mul, ← byteOf_toNat]
    rfl

/-- Settles O13: eight bytes spell all 64 bits, and the big layout is the little one reversed by definition. -/
theorem resultBytesSpellTheNumber : Obligations.ResultBytesSpellTheNumber := by
  intro v
  have hspell : leNat (resultBytes .little v) = v.toNat :=
    (leNat_map_byteOf v 8).trans (Nat.mod_eq_of_lt v.isLt)
  exact ⟨rfl, hspell, rfl⟩

/-! ## The step as the whole of a command -/

theorem runCommand_of_decode {t : Transaction} {i : Instr} (hfit : t.WellFormed) (h : decode t = .ok i) (s : State) :
    runCommand t s = exec i s := by
  rw [runCommand, if_pos hfit, h]

theorem decodeTableWord_eq_some {nbits w : Nat} {i : Instr} :
    decodeTableWord nbits w = some i ↔ decode (tableTransaction nbits w) = .ok i := by
  rw [decodeTableWord]
  cases decode (tableTransaction nbits w) <;> simp

theorem wellFormed_tableTransaction (nbits w : Nat) : (tableTransaction nbits w).WellFormed := Nat.zero_le _

/-- The word placed in front of the host's list is the next command, and running it leaves the list as it was. -/
theorem step_withFetchWord (s : State) (nbits w : Nat) :
    step (s.withFetchWord nbits w) = runCommand (tableTransaction nbits w) s := by
  have hport : (s.withFetchWord nbits w).port = .command (tableTransaction nbits w) :: s.port := rfl
  exact step_of_port hport

/-- Settles O4: the step hands the head of the host's list to the port, and the port runs what it decodes to. -/
theorem stepRunsTheDecodedCommand : Obligations.StepRunsTheDecodedCommand := by
  refine ⟨fun s t rest i hport hfit hdec => ?_, fun s nbits w i hdec => ?_⟩
  · exact (step_of_port hport).trans (runCommand_of_decode hfit hdec _)
  · rw [step_withFetchWord]
    exact runCommand_of_decode (wellFormed_tableTransaction nbits w) (decodeTableWord_eq_some.1 hdec) s

end Sys2Proof.Machine
end

section
/-! PROOFS. The command word, its fields and the assembled forms (30_encoding.md, R90 to R100). -/

namespace Sys2Proof.Machine

/-! ## The fields of the command word (R91) -/

theorem rsvField_toNat (cmd : U8) : (rsvField cmd).toNat = cmd.toNat / 8 := by
  rw [rsvField, BitVec.extractLsb'_toNat, Nat.shiftRight_eq_div_pow]
  omega

theorem opField_toNat (cmd : U8) : (opField cmd).toNat = cmd.toNat % 8 := by
  rw [opField, BitVec.extractLsb'_toNat, Nat.shiftRight_zero]

/-! ## Decoding against encoding (R94, R95) -/

theorem rsvField_encode (i : Instr) : rsvField (encode i).cmd = 0#5 := by
  cases i with
  | hash32 seed data => exact (Laws.CommandWord.hash32 seed data).1
  | hash64 seed data => exact (Laws.CommandWord.hash64 seed data).1
  | s64Init seed data => exact (Laws.CommandWord.s64Init seed data).1
  | s64Append seed data => exact (Laws.CommandWord.s64Append seed data).1
  | s64Final seed data => exact (Laws.CommandWord.s64Final seed data).1

theorem decode_encode (i : Instr) : decode (encode i) = .ok i := by
  have hrsv : ¬ rsvField (encode i).cmd ≠ 0#5 := not_not.2 (rsvField_encode i)
  cases i <;> exact if_neg hrsv

theorem decode_of_rsvField_ne {t : Transaction} (h : rsvField t.cmd ≠ 0#5) : decode t = .error .reservedBits := if_pos h

theorem decode_of_opField_ge {t : Transaction} (hrsv : rsvField t.cmd = 0#5) (h : 5 ≤ (opField t.cmd).toNat) :
    decode t = .error .reservedOpcode := by
  have hop : (opField t.cmd).toNat = 5 ∨ (opField t.cmd).toNat = 6 ∨ (opField t.cmd).toNat = 7 := by omega
  rw [decode, if_neg (not_not.2 hrsv)]
  rcases hop with hop | hop | hop <;> simp [hop]

theorem exists_encode_eq_of_lt {t : Transaction} (h : t.cmd.toNat < 5) : ∃ i, encode i = t := by
  obtain ⟨cmd, seed, data⟩ := t
  have hcmd : cmd = 0x00#8 ∨ cmd = 0x01#8 ∨ cmd = 0x02#8 ∨ cmd = 0x03#8 ∨ cmd = 0x04#8 := by bv_omega
  rcases hcmd with rfl | rfl | rfl | rfl | rfl
  · exact ⟨.hash32 seed data, rfl⟩
  · exact ⟨.hash64 seed data, rfl⟩
  · exact ⟨.s64Init seed data, rfl⟩
  · exact ⟨.s64Append seed data, rfl⟩
  · exact ⟨.s64Final seed data, rfl⟩

/-- A word from 5 on has a reserved bit or one of the three reserved opcodes. -/
theorem exists_decode_error_of_ge {t : Transaction} (h : 5 ≤ t.cmd.toNat) : ∃ e, decode t = .error e := by
  by_cases hrsv : rsvField t.cmd = 0#5
  · have hhigh : t.cmd.toNat / 8 = 0 := by rw [← rsvField_toNat, hrsv]; rfl
    have hop : 5 ≤ (opField t.cmd).toNat := by rw [opField_toNat]; omega
    exact ⟨.reservedOpcode, decode_of_opField_ge hrsv hop⟩
  · exact ⟨.reservedBits, decode_of_rsvField_ne hrsv⟩

/-- A transaction that decodes is the one its command encodes to: below 5 it is some command's encoding, and that command
can only be the one decoded. -/
theorem decode_eq_ok_iff {t : Transaction} {i : Instr} : decode t = .ok i ↔ encode i = t := by
  refine ⟨fun h => ?_, fun h => h ▸ decode_encode i⟩
  rcases Nat.lt_or_ge t.cmd.toNat 5 with hlt | hge
  · obtain ⟨j, rfl⟩ := exists_encode_eq_of_lt hlt
    rw [decode_encode, Except.ok.injEq] at h
    rw [h]
  · obtain ⟨e, he⟩ := exists_decode_error_of_ge hge
    rw [he] at h
    cases h

theorem exists_decode_error_iff {t : Transaction} : (∃ e, decode t = .error e) ↔ 5 ≤ t.cmd.toNat := by
  refine ⟨fun ⟨e, he⟩ => ?_, exists_decode_error_of_ge⟩
  by_contra hlt
  obtain ⟨i, rfl⟩ := exists_encode_eq_of_lt (not_le.1 hlt)
  rw [decode_encode] at he
  cases he

/-- Between a command and a transaction with its operands only the command word decides. -/
theorem decode_eq_ok_iff_commandWord {t : Transaction} {i : Instr} (hseed : i.seed = t.seed) (hdata : i.data = t.data) :
    decode t = .ok i ↔ t.cmd.toNat = (commandWord i).toNat := by
  rw [decode_eq_ok_iff, ← BitVec.toNat_eq]
  refine ⟨fun h => h ▸ rfl, fun h => ?_⟩
  rw [encode, hseed, hdata, ← h]

/-- Settles O1: each command is decoded from its own word of R94, and the words without a command are those from 5 on. -/
theorem decodeIsTheOpcodeMap : Obligations.DecodeIsTheOpcodeMap := fun _ =>
  ⟨decode_eq_ok_iff_commandWord rfl rfl, decode_eq_ok_iff_commandWord rfl rfl, decode_eq_ok_iff_commandWord rfl rfl,
    decode_eq_ok_iff_commandWord rfl rfl, decode_eq_ok_iff_commandWord rfl rfl, exists_decode_error_iff⟩

/-- Settles O2: five of the words are the encodings of their commands; the other two are refused by their fields. -/
theorem writtenWordsDecode : Obligations.WrittenWordsDecode := fun seed data =>
  ⟨decode_encode (.hash32 seed data), decode_encode (.hash64 seed data), decode_encode (.s64Init seed data),
    decode_encode (.s64Append seed data), decode_encode (.s64Final seed data),
    decode_of_opField_ge (by decide : rsvField 0b00000101#8 = 0#5) (by decide : 5 ≤ (opField 0b00000101#8).toNat),
    decode_of_rsvField_ne (by decide : rsvField 0b00001000#8 ≠ 0#5)⟩

/-- Settles O3, by the two directions of `decode_eq_ok_iff`. -/
theorem decodeAndEncodeAgree : Obligations.DecodeAndEncodeAgree :=
  ⟨decode_encode, fun _ _ => decode_eq_ok_iff.1⟩

/-! ## Operands (R92, R93) -/

theorem seed32_toNat (seed : U64) : (seed32 seed).toNat = seed.toNat % 2 ^ 32 := by
  rw [seed32, BitVec.extractLsb'_toNat, Nat.shiftRight_zero]

/-- Settles O7: HASH32 reads its seed through `seed32` alone, and the stream commands never name the operands they
ignore. -/
theorem unusedOperandsAreIgnored : Obligations.UnusedOperandsAreIgnored := by
  refine fun s seed seed' data data' => ⟨fun h => ?_, rfl, rfl, rfl⟩
  have hseed : seed32 seed = seed32 seed' := by
    rw [← BitVec.toNat_inj, seed32_toNat, seed32_toNat, h]
  rw [exec_hash32, exec_hash32, hseed]

/-! ## The assembler (R99, R100) -/

theorem seedWithin_of_lt {bits seed : Nat} (h : seed < 2 ^ bits) : seedWithin bits seed = .ok (BitVec.ofNat 64 seed) :=
  if_pos h

theorem seedWithin_of_ge {bits seed : Nat} (h : 2 ^ bits ≤ seed) : seedWithin bits seed = .error .seedTooWide :=
  if_neg (not_lt.2 h)

/-- Settles O8: the expansions are the table of R100, and a seeded form assembles as `seedWithin` answers for its
width. -/
theorem pseudoInstructionsExpand : Obligations.PseudoInstructionsExpand := by
  refine fun data seed => ⟨rfl, rfl, rfl, rfl, rfl, rfl, fun h => ?_, fun h => ?_, fun h => ⟨?_, ?_⟩, fun h => ⟨?_, ?_⟩,
    rfl, rfl⟩
  · rw [assemble, seedWithin_of_lt h]; rfl
  · rw [assemble, seedWithin_of_ge h]; rfl
  · rw [assemble, seedWithin_of_lt h]; rfl
  · rw [assemble, seedWithin_of_lt h]; rfl
  · rw [assemble, seedWithin_of_ge h]; rfl
  · rw [assemble, seedWithin_of_ge h]; rfl

end Sys2Proof.Machine
end

section
/-! PROOFS. The datapath units of 40_units.md as formulas over the library's rotation. A model's `rotl` stays `rotl`
until `rotl_eq_rotateLeft` replaces it, for which the width must exceed the amount (R17). -/

namespace Sys2Proof.Machine

/-! ## Rotations (R17, R9) -/

/-- Below the width the model's rotation is the library's. -/
theorem rotl_eq_rotateLeft {w r : Nat} (x : BitVec w) (h : r < w) : rotl x r = x.rotateLeft r :=
  (BitVec.rotateLeft_eq_rotateLeftAux_of_lt h).symm

/-- The rotate-and-sum of R128 and R129, in any width above its largest rotation. -/
theorem rotateSum_eq {w : Nat} (v : Quad w) (h : 18 < w) :
    rotateSum v = v.v1.rotateLeft 1 + v.v2.rotateLeft 7 + v.v3.rotateLeft 12 + v.v4.rotateLeft 18 := by
  rw [← rotl_eq_rotateLeft v.v1 (by omega : 1 < w), ← rotl_eq_rotateLeft v.v2 (by omega : 7 < w),
    ← rotl_eq_rotateLeft v.v3 (by omega : 12 < w), ← rotl_eq_rotateLeft v.v4 h]
  rfl

/-! ## Rounds and merge round (R124 to R126) -/

theorem round32_eq (acc lane : U32) :
    round32 acc lane = (acc + lane * 0x85EBCA77#32).rotateLeft 13 * 0x9E3779B1#32 :=
  congrArg (· * _) (rotl_eq_rotateLeft _ (by decide))

theorem round64_eq (acc lane : U64) :
    round64 acc lane = (acc + lane * 0xC2B2AE3D27D4EB4F#64).rotateLeft 31 * 0x9E3779B185EBCA87#64 :=
  congrArg (· * _) (rotl_eq_rotateLeft _ (by decide))

/-- The round on a zero accumulator, which the merge round and the 8-byte tail step use. -/
theorem round64_zero (lane : U64) :
    round64 0#64 lane = (lane * 0xC2B2AE3D27D4EB4F#64).rotateLeft 31 * 0x9E3779B185EBCA87#64 := by
  rw [round64_eq, BitVec.zero_add]

theorem merge64_eq (acc val : U64) : merge64 acc val =
    (acc ^^^ (val * 0xC2B2AE3D27D4EB4F#64).rotateLeft 31 * 0x9E3779B185EBCA87#64) * 0x9E3779B185EBCA87#64 +
      0x85EBCA77C2B2AE63#64 := by
  rw [merge64, round64_zero]; rfl

/-! ## Tail steps (R132 to R136) -/

theorem t4_32_eq (h lane : U32) : t4_32 h lane = (h + lane * 0xC2B2AE3D#32).rotateLeft 17 * 0x27D4EB2F#32 :=
  congrArg (· * _) (rotl_eq_rotateLeft _ (by decide))

theorem t1_32_eq (h : U32) (b : U8) :
    t1_32 h b = (h + b.setWidth 32 * 0x165667B1#32).rotateLeft 11 * 0x9E3779B1#32 :=
  congrArg (· * _) (rotl_eq_rotateLeft _ (by decide))

theorem t8_64_eq (h lane : U64) : t8_64 h lane =
    (h ^^^ (lane * 0xC2B2AE3D27D4EB4F#64).rotateLeft 31 * 0x9E3779B185EBCA87#64).rotateLeft 27 *
      0x9E3779B185EBCA87#64 + 0x85EBCA77C2B2AE63#64 := by
  rw [t8_64, round64_zero, rotl_eq_rotateLeft _ (by decide)]; rfl

theorem t4_64_eq (h : U64) (lane : U32) : t4_64 h lane =
    (h ^^^ lane.setWidth 64 * 0x9E3779B185EBCA87#64).rotateLeft 23 * 0xC2B2AE3D27D4EB4F#64 +
      0x165667B19E3779F9#64 := by
  rw [t4_64, rotl_eq_rotateLeft _ (by decide)]; rfl

theorem t1_64_eq (h : U64) (b : U8) :
    t1_64 h b = (h ^^^ b.setWidth 64 * 0x27D4EB2F165667C5#64).rotateLeft 11 * 0x9E3779B185EBCA87#64 :=
  congrArg (· * _) (rotl_eq_rotateLeft _ (by decide))

/-! ## The two statements -/

/-- Settles O19, unit by unit: the rounds and sums rotate below their width, and the seeding has no rotation; `converge64`
is the fold of `merge64` by definition. -/
theorem mixingUnitsAreTheirFormulas : Obligations.MixingUnitsAreTheirFormulas :=
  ⟨round32_eq, round64_eq, merge64_eq, fun _ => rfl, fun _ => rfl, fun v => rotateSum_eq v (by decide),
    fun v => congrArg ([v.v1, v.v2, v.v3, v.v4].foldl merge64) (rotateSum_eq v (by decide))⟩

/-- Settles O20, unit by unit: an avalanche is its xor-shifts and multiplies by definition, and the tail steps rotate
below their width. -/
theorem finishingUnitsAreTheirFormulas : Obligations.FinishingUnitsAreTheirFormulas :=
  ⟨fun _ => rfl, fun _ => rfl, t4_32_eq, t1_32_eq, t8_64_eq, t4_64_eq, t1_64_eq⟩

end Sys2Proof.Machine
end

section
/-! PROOFS. The statements of 41_hash32.md: what HASH32 writes (R160), its two entry paths (R161 to R164), the empty
input (R165) and what the result depends on (R166). The command is `exec_hash32`; the rest is about `xxh32`. -/

namespace Sys2Proof.Machine

open Config

/-- Settles O21: the engine's run is `exec_hash32`, and the state it ends in is the record update by definition. -/
theorem hash32WritesXxh32 : Obligations.Hash32WritesXxh32 := exec_hash32

/-- The command's next state, by its RESULT alone. -/
theorem exists_exec_hash32 (seed : U64) (data : List U8) (s : State) :
    ∃ t, exec (.hash32 seed data) s = .next t ∧ t.result = some (zext64 (xxh32 (seed32 seed) data)) :=
  ⟨_, exec_hash32 seed data s, rfl⟩

/-! ## The two entry paths of XXH32 -/

/-- The short path (R161): no stripe, so the tail is the whole input. -/
theorem xxh32_of_lt {data : List U8} (h : data.length < chunk32) (seed : U32) :
    xxh32 seed data = avalanche32 (hashTail32 (seed + p32_5 + BitVec.ofNat 32 data.length) data) := by
  rw [xxh32, if_pos h, Nat.div_eq_of_lt h, Nat.mul_zero, List.drop_zero]

/-- The long path (R161, R162). -/
theorem xxh32_of_ge {data : List U8} (h : chunk32 ≤ data.length) (seed : U32) :
    xxh32 seed data = avalanche32 (hashTail32
      (converge32 (stripes32Of (data.length / chunk32) (init32 seed) data) + BitVec.ofNat 32 data.length)
      (data.drop (chunk32 * (data.length / chunk32)))) := by
  rw [xxh32, if_neg h.not_gt]

/-- Settles O22, path by path; the length term is reduced modulo 2^32 by the word itself (R163). -/
theorem hash32PathStripesAndLength : Obligations.Hash32PathStripesAndLength := by
  intro seed data s
  obtain ⟨t, ht, hresult⟩ := exists_exec_hash32 seed data s
  have hlen : BitVec.ofNat 32 (data.length % 2 ^ 32) = BitVec.ofNat 32 data.length :=
    BitVec.eq_of_toNat_eq (Nat.mod_mod _ _)
  refine ⟨t, ht, fun hshort => ?_, fun hlong => ?_⟩
  · rw [hresult, xxh32_of_lt hshort, hlen]
    rfl
  · rw [hresult, xxh32_of_ge hlong, hlen]
    rfl

/-! ## The empty input and the operands -/

theorem xxh32_nil (seed : U32) : xxh32 seed [] = avalanche32 (seed + p32_5) := by
  rw [xxh32_of_lt (by decide), List.length_nil, BitVec.add_zero]
  rfl

/-- Settles O23: the hash of no bytes, and its value under seed 0 by evaluating one avalanche. -/
theorem hash32OfTheEmptyInput : Obligations.Hash32OfTheEmptyInput := by
  refine ⟨fun seed s => ?_, fun s => ?_⟩
  · obtain ⟨t, ht, hresult⟩ := exists_exec_hash32 seed [] s
    exact ⟨t, ht, by rw [hresult, xxh32_nil]; rfl⟩
  · obtain ⟨t, ht, hresult⟩ := exists_exec_hash32 0#64 [] s
    have hvalue : zext64 (avalanche32 (seed32 0#64 + p32_5)) = 0x02CC5D05#64 := by decide
    exact ⟨t, ht, by rw [hresult, xxh32_nil, hvalue]⟩

/-- Settles O24: seeds that agree modulo 2^32 make the same command (R92), whose RESULT is a value that no state enters. -/
theorem hash32DependsOnItsOperandsAlone : Obligations.Hash32DependsOnItsOperandsAlone := by
  intro seed seed' data s s' hseed
  obtain ⟨t, ht, hresult⟩ := exists_exec_hash32 seed data s
  obtain ⟨t', ht', hresult'⟩ := exists_exec_hash32 seed data s'
  have hsame : exec (.hash32 seed data) s' = exec (.hash32 seed' data) s' :=
    (unusedOperandsAreIgnored s' seed seed' data data).1 hseed
  exact ⟨t, t', ht, hsame ▸ ht', hresult.trans hresult'.symm, by simp [hresult]⟩

end Sys2Proof.Machine
end

section
/-! PROOFS. The statements of 42_hash64.md: what HASH64 writes (R190), its two entry paths and its tail (R191 to R194), the
empty input (R195) and what the result depends on (R196). The command is `exec_hash64`; the rest is about `xxh64`. -/

namespace Sys2Proof.Machine

open Config

/-- Settles O25: the engine's run is `exec_hash64`, and the state it ends in is the record update by definition. -/
theorem hash64WritesXxh64 : Obligations.Hash64WritesXxh64 := exec_hash64

/-- The command's next state, by its RESULT alone. -/
theorem exists_exec_hash64 (seed : U64) (data : List U8) (s : State) :
    ∃ t, exec (.hash64 seed data) s = .next t ∧ t.result = some (xxh64 seed data) :=
  ⟨_, exec_hash64 seed data s, rfl⟩

/-! ## The two entry paths of XXH64 -/

/-- The short path (R191): no stripe, so the tail is the whole input. -/
theorem xxh64_of_lt {data : List U8} (h : data.length < chunk64) (seed : U64) :
    xxh64 seed data = avalanche64 (hashTail64 (seed + p64_5 + BitVec.ofNat 64 data.length) data) := by
  rw [xxh64, if_pos h, Nat.div_eq_of_lt h, Nat.mul_zero, List.drop_zero]

/-- The long path (R191, R192). -/
theorem xxh64_of_ge {data : List U8} (h : chunk64 ≤ data.length) (seed : U64) :
    xxh64 seed data = avalanche64 (hashTail64
      (converge64 (stripes64Of (data.length / chunk64) (init64 seed) data) + BitVec.ofNat 64 data.length)
      (data.drop (chunk64 * (data.length / chunk64)))) := by
  rw [xxh64, if_neg h.not_gt]

/-! ## The shape of the tail (R192) -/

/-- What the 8-byte steps leave of a tail. -/
theorem length_drop_lanes (tail : List U8) : (tail.drop (8 * (tail.length / 8))).length = tail.length % 8 := by
  rw [List.length_drop, ← Nat.mod_eq_sub_mul_div]

/-- Fewer than four bytes left: no 4-byte step. -/
theorem hashRest64_of_lt {bs : List U8} (hlen : bs.length < 4) (h : U64) : hashRest64 h bs = bs.foldl t1_64 h :=
  if_pos hlen

/-- Four bytes left or more: one 4-byte step, and the byte steps start after it. -/
theorem hashRest64_of_ge {bs : List U8} (hlen : 4 ≤ bs.length) (h : U64) :
    hashRest64 h bs = (bs.drop 4).foldl t1_64 (t4_64 h (laneOf 32 4 bs)) :=
  if_neg hlen.not_gt

/-- Settles O26: the hash path by path, and the tail by the bytes its 8-byte steps leave. -/
theorem hash64PathStripesAndLength : Obligations.Hash64PathStripesAndLength := by
  refine ⟨fun seed data s => ?_, fun h tail => ⟨fun hlt => ?_, fun hge => ?_⟩⟩
  · obtain ⟨t, ht, hresult⟩ := exists_exec_hash64 seed data s
    exact ⟨t, ht, fun hshort => hresult.trans (congrArg some (xxh64_of_lt hshort seed)),
      fun hlong => hresult.trans (congrArg some (xxh64_of_ge hlong seed))⟩
  · rw [← length_drop_lanes] at hlt
    exact hashRest64_of_lt hlt _
  · rw [← length_drop_lanes] at hge
    rw [hashTail64, hashRest64_of_ge hge, List.drop_drop]

/-! ## The empty input and the operands -/

theorem xxh64_nil (seed : U64) : xxh64 seed [] = avalanche64 (seed + p64_5) := by
  rw [xxh64_of_lt (by decide), List.length_nil, BitVec.add_zero]
  rfl

/-- Settles O27: the hash of no bytes, and its value under seed 0 by evaluating one avalanche. -/
theorem hash64OfTheEmptyInput : Obligations.Hash64OfTheEmptyInput := by
  refine ⟨fun seed s => ?_, fun s => ?_⟩
  · obtain ⟨t, ht, hresult⟩ := exists_exec_hash64 seed [] s
    exact ⟨t, ht, hresult.trans (congrArg some (xxh64_nil seed))⟩
  · obtain ⟨t, ht, hresult⟩ := exists_exec_hash64 0#64 [] s
    have hvalue : avalanche64 (0#64 + p64_5) = 0xEF46DB3751D8E999#64 := by decide
    exact ⟨t, ht, by rw [hresult, xxh64_nil, hvalue]⟩

/-- Settles O28: both runs end with the same function of SEED and DATA in RESULT, a value that no state enters. -/
theorem hash64DependsOnItsOperandsAlone : Obligations.Hash64DependsOnItsOperandsAlone := by
  intro seed data s s'
  obtain ⟨t, ht, hresult⟩ := exists_exec_hash64 seed data s
  obtain ⟨t', ht', hresult'⟩ := exists_exec_hash64 seed data s'
  exact ⟨t, t', ht, ht', hresult.trans hresult'.symm, by simp [hresult]⟩

end Sys2Proof.Machine
end

section
/-! PROOFS. The statements of 43_stream64.md: the chunk buffer (R222), each stream command on its own (R228 to R237), and
a stream against the bytes it was fed (R235, R240). -/

namespace Sys2Proof.Machine

open Config

/-! ## What an absorbed run leaves in BUF -/

/-- A run that ends at or below 32 does not wrap: each byte is at its offset, and the others read as before. -/
theorem BufAbsorbs.read_of_fits {m m' : Memory} {off : Nat} {bs : List U8} (h : BufAbsorbs m m' off bs)
    (hfits : off + bs.length ≤ 32) (x : Nat) :
    m'.read x = if off ≤ x ∧ x < off + bs.length then bs[x - off]? else m.read x := by
  obtain ⟨hstored, hkept⟩ := h
  split_ifs with hx
  · have hplace : (off + (x - off)) % 32 = x := by omega
    rw [← hstored (x - off) (by omega) (by omega), hplace]
  · exact hkept x fun i hi => by omega

/-- Every offset a run reaches is the place of one of its last 32 bytes. -/
theorem exists_last_at_offset {len n i : Nat} (hi : i < n) :
    ∃ j, j < n ∧ n ≤ j + 32 ∧ (len + j) % 32 = (len + i) % 32 :=
  ⟨i + 32 * ((n - 1 - i) / 32), by omega, by omega, by omega⟩

/-- The bytes a run leaves are determined by what was there and by the run. -/
theorem BufAbsorbs.read_unique {m m₁ m₂ : Memory} {len : Nat} {data : List U8} (h₁ : BufAbsorbs m m₁ len data)
    (h₂ : BufAbsorbs m m₂ len data) (x : Nat) : m₁.read x = m₂.read x := by
  by_cases hx : ∃ i, i < data.length ∧ (len + i) % 32 = x
  · obtain ⟨i, hi, rfl⟩ := hx
    obtain ⟨j, hj, hlast, hplace⟩ := exists_last_at_offset (len := len) hi
    rw [← hplace, h₁.1 j hj hlast, h₂.1 j hj hlast]
  · have huntouched : ∀ i, i < data.length → (len + i) % 32 ≠ x := fun i hi heq => hx ⟨i, hi, heq⟩
    rw [h₁.2 x huntouched, h₂.2 x huntouched]

/-- So two canonical buffers that the same run leaves are the same (log entry 4). -/
theorem BufAbsorbs.unique {m m₁ m₂ : Memory} {len : Nat} {data : List U8} (h₁ : BufAbsorbs m m₁ len data)
    (h₂ : BufAbsorbs m m₂ len data) (hwf₁ : m₁.wf) (hwf₂ : m₂.wf) : m₁ = m₂ :=
  Memory.ext hwf₁ hwf₂ (h₁.read_unique h₂)

/-- Settles O18: `consume_spec`, whose copied bytes end at or below 32 and so do not wrap. -/
theorem consumeCopiesWhatFits : Obligations.ConsumeCopiesWhatFits := by
  intro s n B hlen hn
  obtain ⟨m, hm, -, habs⟩ := consume_spec hlen hn B
  refine ⟨m, hm, fun x => ?_⟩
  have hk : (B.take (min (32 - n) B.length)).length = min (32 - n) B.length := by
    rw [List.length_take]
    omega
  rw [habs.read_of_fits (by omega), hk]
  split_ifs with hx
  · exact List.getElem?_take_of_lt (by omega)
  · rfl

/-! ## S64_INIT -/

/-- The state S64_INIT leaves (R228). -/
def started (s : State) (seed : U64) : State :=
  finish .ok ((((((s.writeSeed seed).writeV (init64 seed)).writeBufLen 0#6).writeTotal 0#64).writeSv true).writeFv false)

theorem exec_init (seed : U64) (data : List U8) (s : State) : exec (.s64Init seed data) s = .next (started s seed) := rfl

/-- Settles O29: the writes of `started`, with the seeding of R127 and the primes of R15 written out. -/
theorem initStartsTheStream : Obligations.InitStartsTheStream := exec_init

/-- Settles O30: S64_INIT writes every register but RESULT, S_BUF, the host's record and the engine registers, and those
last hold no value in a good state, as after reset. -/
theorem initAbandonsTheLiveStream : Obligations.InitAbandonsTheLiveStream := by
  intro s seed data hinv _
  refine ⟨_, _, exec_init seed data s, exec_init seed data (hostReset s), ?_⟩
  have h32 : (started s seed).e32 = none := hinv.engine32
  have h64 : (started s seed).e64 = none := hinv.engine64
  rw [State.mk.injEq]
  exact ⟨rfl, rfl, rfl, rfl, rfl, rfl, rfl, rfl, rfl, h32, h64, rfl, rfl⟩

/-! ## S64_APPEND -/

/-- Settles O35: the two checks pass, and the rest is the loop's `absorb_spec`. -/
theorem appendAbsorbsItsData : Obligations.AppendAbsorbsItsData := by
  intro s seed total v held data hsv hlive hfits
  obtain ⟨m, hm, hwf, habs⟩ := absorb_spec data.length hlive le_rfl
  refine ⟨m, execS64Append_of seed hsv hlive.sTotal hfits hm, ?_, habs.holds hlive.holds hlive.lt, habs, hwf⟩
  rw [BitVec.toNat_add, BitVec.toNat_ofNat]
  omega

/-- Settles O36: with no bytes the length check passes and the loop makes no pass. -/
theorem emptyAppendOnlyClearsFv : Obligations.EmptyAppendOnlyClearsFv := by
  intro s seed total hsv htotal
  have hfits : total.toNat + ([] : List U8).length ≤ maxTotal := Nat.le_pred_of_lt total.isLt
  exact execS64Append_of seed hsv htotal hfits rfl

/-- Bytes that fit by their exact count pass the length check on the register that counts them (R265). -/
theorem toNat_ofNat64_add_le {n k limit : Nat} (h : n + k ≤ limit) : (BitVec.ofNat 64 n).toNat + k ≤ limit :=
  (Nat.add_le_add_right (Nat.mod_le _ _) _).trans h

/-- Settles O40: the loop extends the bytes absorbed, and the end of the command touches no stream register. -/
theorem appendExtendsTheAbsorbedBytes : Obligations.AppendExtendsTheAbsorbedBytes := by
  intro s seed x bs data hs hfits
  obtain ⟨u, hu, habs⟩ := hs.absorb hfits
  exact ⟨_, execS64Append_of x hs.sv hs.sTotal (toNat_ofNat64_add_le hfits) hu,
    (sameStream_finish_writeFv .ok false u).absorbed habs, rfl⟩

/-! ## S64_FINAL -/

/-- Settles O37: `exec_final_of`, with P64_5 written out. -/
theorem finalHashesTheStreamRegisters : Obligations.FinalHashesTheStreamRegisters :=
  fun _ x _ _ _ _ data hsv hseed hlive => exec_final_of hsv hseed hlive x data

/-- The entry path of R236 is that of R191, because S_TOTAL is the exact number of bytes absorbed. -/
theorem xxh64_eq_of_short {bs : List U8} (hshort : bs.length ≤ maxTotal) (seed : U64) :
    avalanche64 (hashTail64
      ((if chunk64 ≤ (BitVec.ofNat 64 bs.length).toNat then converge64 (stripes64Of (bs.length / 32) (init64 seed) bs)
        else seed + p64_5) + BitVec.ofNat 64 bs.length)
      (bs.drop (32 * (bs.length / 32)))) = xxh64 seed bs := by
  have hexact : (BitVec.ofNat 64 bs.length).toNat = bs.length :=
    Nat.mod_eq_of_lt (Nat.lt_of_le_pred (by decide) hshort)
  rw [hexact]
  rcases Nat.lt_or_ge bs.length chunk64 with hlt | hge
  · have hnone : bs.length / 32 = 0 := Nat.div_eq_of_lt hlt
    rw [if_neg hlt.not_ge, xxh64_of_lt hlt, hnone, Nat.mul_zero, List.drop_zero]
  · rw [if_pos hge, xxh64_of_ge hge]
    rfl

/-- Settles O41: the registers of R45 make S64_FINAL's hash the one-shot hash. -/
theorem finalIsXxh64OfTheAbsorbedBytes : Obligations.FinalIsXxh64OfTheAbsorbedBytes := by
  intro s seed x bs data hs
  rw [exec_final_of hs.sv hs.sSeed hs.liveAt x data, xxh64_eq_of_short hs.short]
  rfl

/-! ## Commands that leave the stream alone -/

theorem SameStream.refl (s : State) : SameStream s s := ⟨rfl, rfl, rfl, rfl, rfl, rfl⟩

theorem SameStream.trans {s t u : State} (h₁ : SameStream s t) (h₂ : SameStream t u) : SameStream s u :=
  ⟨h₂.sv.trans h₁.sv, h₂.sSeed.trans h₁.sSeed, h₂.sV.trans h₁.sV, h₂.sBuf.trans h₁.sBuf, h₂.sBufLen.trans h₁.sBufLen,
    h₂.sTotal.trans h₁.sTotal⟩

theorem SameStream.liveAt {s t : State} {v : Quad 64} {total : U64} {held : List U8} (h : SameStream s t)
    (hs : LiveAt s v total held) : LiveAt t v total held :=
  ⟨h.sV.trans hs.sV, h.sTotal.trans hs.sTotal, h.sBufLen.trans hs.sBufLen, hs.lt, h.sBuf ▸ hs.holds⟩

/-- Of the five commands only S64_INIT and S64_APPEND write a stream register other than FV (R166, R196, R237). -/
theorem exec_sameStream {i : Instr} {s t : State} (h : exec i s = .next t) (hinit : isInit i = false)
    (happend : isAppend i = false) : SameStream s t := by
  obtain ⟨-, -, hseed, hstream, hbuf, -⟩ := commandsKeepWhatTheyDoNotName i s t h
  obtain ⟨hsSeed, hsv⟩ := hseed hinit
  obtain ⟨hsV, hsBufLen, hsTotal⟩ := hstream hinit happend
  exact ⟨hsv, hsSeed, hsV, (hbuf happend).1, hsBufLen, hsTotal⟩

/-- From a good state any such commands complete and keep the stream. -/
theorem execAll_sameStream {s : State} (hs : Inv s) {is : List Instr}
    (his : ∀ i ∈ is, isInit i = false ∧ isAppend i = false) : ∃ t, execAll is s = .next t ∧ SameStream s t := by
  induction is generalizing s with
  | nil => exact ⟨s, rfl, .refl s⟩
  | cons i is ih =>
    obtain ⟨⟨hinit, happend⟩, hrest⟩ := List.forall_mem_cons.1 his
    obtain ⟨t, ht⟩ := exec_completes hs i
    obtain ⟨u, hu, htu⟩ := ih (exec_keeps_inv ht hs) hrest
    exact ⟨u, (execAll_cons_of_next ht is).trans hu, (exec_sameStream ht hinit happend).trans htu⟩

/-- Settles O38: both S64_FINALs hash the registers of the same stream. -/
theorem finalIsRepeatable : Obligations.FinalIsRepeatable := by
  intro s x y a b is hinv hsv his
  obtain ⟨seed, v, total, held, hseed, hlive, -⟩ := (hinv.live hsv).liveAt
  have ht := exec_final_of hsv hseed hlive x a
  have hst := exec_sameStream ht rfl rfl
  obtain ⟨u, hu, htu⟩ := execAll_sameStream (exec_keeps_inv ht hinv) his
  have hsu := hst.trans htu
  have hw := exec_final_of (hsu.sv.trans hsv) (hsu.sSeed.trans hseed) (hsu.liveAt hlive) y b
  obtain ⟨hsv', hsSeed, hsV, hsBuf, hsBufLen, hsTotal⟩ := hsu.trans (exec_sameStream hw rfl rfl)
  exact ⟨_, u, _, ht, hu, hw, rfl, by simp, ⟨hst.sSeed, hst.sV, hst.sBuf, hst.sBufLen, hst.sTotal, hst.sv⟩,
    hsSeed, hsV, hsBuf, hsBufLen, hsTotal, hsv'⟩

/-- Settles O39: the append meets the same stream in both states, so it leaves the same bytes in BUF, and it writes
neither RESULT nor any register by which the two states differ, but FV and CODE, which it sets. -/
theorem appendAfterFinalContinues : Obligations.AppendAfterFinalContinues := by
  intro s x y total a data hinv hsv htotal hfits
  obtain ⟨seed, v, total', held, hseed, hlive, -⟩ := (hinv.live hsv).liveAt
  cases htotal.symm.trans hlive.sTotal
  have ht := exec_final_of hsv hseed hlive x a
  obtain ⟨m, hw, -, -, habs, hwf⟩ := appendAbsorbsItsData s y total v held data hsv hlive hfits
  obtain ⟨m', hu, -, -, habs', hwf'⟩ := appendAbsorbsItsData _ y total v held data
    ((exec_sameStream ht rfl rfl).sv.trans hsv) ((exec_sameStream ht rfl rfl).liveAt hlive) hfits
  obtain rfl : m' = m := habs'.unique habs (hwf' hinv.buf) (hwf hinv.buf)
  exact ⟨_, _, _, ht, hu, hw, rfl⟩

/-- Settles O46: the frame of every command has S_SEED, and SEED is an operand that neither stream command uses. -/
theorem onlyInitWritesTheSeed : Obligations.OnlyInitWritesTheSeed := by
  refine ⟨fun i s t h hinit => ?_, fun s x y data => ?_⟩
  · obtain ⟨-, -, hseed, -⟩ := commandsKeepWhatTheyDoNotName i s t h
    exact (hseed hinit).1
  · obtain ⟨-, -, happend, hfinal⟩ := unusedOperandsAreIgnored s x y data data
    exact ⟨happend, hfinal⟩

/-! ## A stream and the way its bytes were cut -/

/-- The state `t` is what feeding `bs`, in any way, to the stream that S64_INIT started in `s` leaves: the registers of
R45, in BUF the last bytes fed over the stale ones, and nothing else changed since. -/
structure Fed (s : State) (seed : U64) (bs : List U8) (t : State) : Prop where
  absorbed : Absorbed t seed bs
  frame : streamWritten (started s seed) t
  wf : t.sBuf.wf
  buf : BufAbsorbs s.sBuf t.sBuf 0 bs

theorem fed_started {s : State} (hwf : s.sBuf.wf) (seed : U64) : Fed s seed [] (started s seed) :=
  ⟨absorbed_started s seed, rfl, hwf, BufAbsorbs.refl _ _⟩

/-- The bytes fed determine the state. -/
theorem Fed.unique {s t u : State} {seed : U64} {bs : List U8} (ht : Fed s seed bs t) (hu : Fed s seed bs u) :
    t = u := by
  have hbuf := ht.buf.unique hu.buf ht.wf hu.wf
  have hT := ht.absorbed
  have hU := hu.absorbed
  rw [ht.frame, hu.frame, hbuf, hT.sV, hU.sV, hT.sBufLen, hU.sBufLen, hT.sTotal, hU.sTotal]

/-- An append feeds its DATA. -/
theorem Fed.append {s t : State} {seed : U64} {bs data : List U8} (h : Fed s seed bs t) (x : U64)
    (hfits : bs.length + data.length ≤ maxTotal) :
    ∃ u, exec (.s64Append x data) t = .next u ∧ Fed s seed (bs ++ data) u := by
  obtain ⟨u, hu, habs, -⟩ := appendExtendsTheAbsorbedBytes t seed x bs data h.absorbed hfits
  obtain ⟨m, hm, -, -, hbuf, hwf⟩ := appendAbsorbsItsData t x _ _ _ data h.absorbed.sv h.absorbed.liveAt
    (toNat_ofNat64_add_le hfits)
  cases hu.symm.trans hm
  refine ⟨_, hu, habs, ?_, hwf h.wf, h.buf.trans ?_⟩
  · obtain ⟨_, _, _, _, rfl⟩ := h.frame.exists_eq
    rfl
  · have hheld : (bs.drop (32 * (bs.length / 32))).length = (0 + bs.length) % 32 := by
      rw [List.length_drop]
      omega
    rwa [← hheld]

/-- One append after another feeds the concatenation. -/
theorem Fed.execAll_appends {s t : State} {seed : U64} {bs : List U8} (h : Fed s seed bs t) (chunks : List (List U8))
    (hfits : bs.length + chunks.flatten.length ≤ maxTotal) :
    ∃ u, execAll (appends chunks) t = .next u ∧ Fed s seed (bs ++ chunks.flatten) u := by
  induction chunks generalizing bs t with
  | nil => exact ⟨t, rfl, by rwa [List.flatten_nil, List.append_nil]⟩
  | cons c chunks ih =>
    rw [List.flatten_cons, List.length_append] at hfits
    obtain ⟨u, hu, hfed⟩ := h.append 0#64 (data := c) (by omega)
    obtain ⟨w, hw, hfed'⟩ := ih hfed (by rw [List.length_append]; omega)
    exact ⟨w, (execAll_cons_of_next hu _).trans hw, by rwa [List.flatten_cons, ← List.append_assoc]⟩

/-- S64_INIT and the appends of any byte sequences that fit feed their concatenation. -/
theorem execAll_init_appends {s : State} (hwf : s.sBuf.wf) (seed : U64) (data : List U8) {chunks : List (List U8)}
    (hfits : chunks.flatten.length ≤ maxTotal) :
    ∃ t, execAll (.s64Init seed data :: appends chunks) s = .next t ∧ Fed s seed chunks.flatten t := by
  rw [execAll_cons_of_next (exec_init seed data s)]
  exact (fed_started hwf seed).execAll_appends chunks (by rwa [List.length_nil, Nat.zero_add])

/-- Settles O42: both cuts feed the same bytes, and the bytes fed determine the state. -/
theorem partitionIndependence : Obligations.PartitionIndependence := by
  intro s seed data chunks chunks' hwf hsame hfits
  obtain ⟨t, ht, hfed⟩ := execAll_init_appends hwf seed data hfits
  obtain ⟨t', ht', hfed'⟩ := execAll_init_appends hwf seed data (hsame ▸ hfits)
  obtain rfl : t = t' := hfed.unique (hsame ▸ hfed')
  exact ⟨t, ht, ht', hfed.absorbed⟩

/-! ## A stream and the one-shot hash -/

/-- What a command that is not S64_INIT adds to the bytes absorbed: those it appends. -/
theorem Absorbed.exec_of_not_init {s : State} {seed : U64} {bs : List U8} (h : Absorbed s seed bs) {i : Instr}
    (hinit : isInit i = false) (hfits : bs.length + (appendedBytes [i]).length ≤ maxTotal) :
    ∃ t, exec i s = .next t ∧ Absorbed t seed (bs ++ appendedBytes [i]) := by
  have hsame {t : State} (ht : exec i s = .next t) (happend : isAppend i = false) (hnil : appendedBytes [i] = []) :
      ∃ t, exec i s = .next t ∧ Absorbed t seed (bs ++ appendedBytes [i]) := by
    rw [hnil, List.append_nil]
    exact ⟨t, ht, (exec_sameStream ht hinit happend).absorbed h⟩
  cases i with
  | hash32 x data => exact hsame (exec_hash32 x data s) rfl rfl
  | hash64 x data => exact hsame (exec_hash64 x data s) rfl rfl
  | s64Init x data => cases hinit
  | s64Append x data =>
    have hdata : appendedBytes [.s64Append x data] = data := List.append_nil data
    rw [hdata] at hfits ⊢
    obtain ⟨t, ht, habs, -⟩ := appendExtendsTheAbsorbedBytes s seed x bs data h hfits
    exact ⟨t, ht, habs⟩
  | s64Final x data => exact hsame (finalIsXxh64OfTheAbsorbedBytes s seed x bs data h) rfl rfl

theorem appendedBytes_cons (i : Instr) (is : List Instr) :
    appendedBytes (i :: is) = appendedBytes [i] ++ appendedBytes is := by
  cases i <;> simp [appendedBytes]

/-- Any commands but S64_INIT whose bytes fit complete on an absorbed stream and extend it. -/
theorem Absorbed.execAll_of_not_init {s : State} {seed : U64} {bs : List U8} (h : Absorbed s seed bs) {is : List Instr}
    (his : ∀ i ∈ is, isInit i = false) (hfits : bs.length + (appendedBytes is).length ≤ maxTotal) :
    ∃ t, execAll is s = .next t ∧ Absorbed t seed (bs ++ appendedBytes is) := by
  induction is generalizing s bs with
  | nil => exact ⟨s, rfl, by rwa [appendedBytes, List.append_nil]⟩
  | cons i is ih =>
    obtain ⟨hinit, hrest⟩ := List.forall_mem_cons.1 his
    rw [appendedBytes_cons, List.length_append] at hfits
    obtain ⟨t, ht, habs⟩ := h.exec_of_not_init hinit (by omega)
    obtain ⟨u, hu, habs'⟩ := ih habs hrest (by rw [List.length_append]; omega)
    exact ⟨u, (execAll_cons_of_next ht is).trans hu, by rwa [appendedBytes_cons, ← List.append_assoc]⟩

/-- Settles O43: the stream has absorbed the bytes appended, and both commands write their XXH64. -/
theorem streamEqualsOneShot : Obligations.StreamEqualsOneShot := by
  intro s s' seed x a b is his hfits
  obtain ⟨t, ht, habs⟩ := (absorbed_started s seed).execAll_of_not_init his (by rwa [List.length_nil, Nat.zero_add])
  rw [List.nil_append] at habs
  have hu := finalIsXxh64OfTheAbsorbedBytes t seed x _ b habs
  have hw := exec_hash64 seed (appendedBytes is) s'
  exact ⟨t, _, _, (execAll_cons_of_next (exec_init seed a s) is).trans ht, hu, hw, rfl, rfl, rfl, by simp⟩

end Sys2Proof.Machine
end

section
/-! PROOFS. The statements of 60_exceptions.md: the completion codes (R261 to R266), the idle block (R275), and the one
model fault a good state can meet (R276). -/

namespace Sys2Proof.Machine

open Config

/-! ## ILLEGAL words and the idle block -/

/-- A word without a command only reports ERR_ILLEGAL (R96, R262). -/
theorem runCommand_of_ge {t : Transaction} (hfit : t.WellFormed) (h : 5 ≤ t.cmd.toNat) (s : State) :
    runCommand t s = .next (raiseError .errIllegal s) := by
  obtain ⟨e, he⟩ := exists_decode_error_of_ge h
  rw [runCommand, if_pos hfit, he]
  rfl

theorem runCommand_encode {i : Instr} (hfit : (encode i).WellFormed) (s : State) :
    runCommand (encode i) s = exec i s :=
  runCommand_of_decode hfit (decode_encode i) s

theorem step_of_port_nil {s : State} (h : s.port = []) : step s = .next s := by
  rw [step, h, idle]

/-- Settles O5, by the step with an empty list. -/
theorem idleBlockKeepsEveryRegister : Obligations.IdleBlockKeepsEveryRegister := fun _ => step_of_port_nil

/-- Settles O6: a word with a reserved bit or opcode is one from 5 on. -/
theorem illegalWordOnlySetsErrIllegal : Obligations.IllegalWordOnlySetsErrIllegal := by
  intro s t rest hport hfit hword
  have hge : 5 ≤ t.cmd.toNat := by omega
  exact (step_of_port hport).trans (runCommand_of_ge hfit hge (s.setPort rest))

/-! ## Errors -/

/-- Settles O32, by the length check of S64_APPEND. -/
theorem appendPastTheLimitIsRefused : Obligations.AppendPastTheLimitIsRefused :=
  fun _ seed _ _ hsv htotal hpast => exec_append_past seed hsv htotal hpast

theorem sv_eq_of_not_init {i : Instr} {s t : State} (h : exec i s = .next t) (hinit : isInit i = false) :
    t.sv = s.sv := by
  obtain ⟨-, -, hseed, -⟩ := commandsKeepWhatTheyDoNotName i s t h
  exact (hseed hinit).2

theorem sv_of_init {i : Instr} {s t : State} (h : exec i s = .next t) (hinit : isInit i = true) : t.sv = true := by
  cases i with
  | s64Init seed data => cases h; rfl
  | _ => cases hinit

/-- Settles O31: the check of SV comes first in both commands, and of the five only S64_INIT writes SV. -/
theorem streamCommandsNeedAStream : Obligations.StreamCommandsNeedAStream := by
  refine ⟨fun s seed data hs => ⟨exec_append_noStream hs seed data, exec_final_noStream hs seed data⟩, rfl,
    fun i s t h hs => ?_⟩
  cases hinit : isInit i with
  | false => simp [sv_eq_of_not_init h hinit, hs]
  | true => simp [sv_of_init h hinit]

/-- A command that completes with an error has only reported it (R264). -/
theorem eq_raiseError_of_exec {i : Instr} {s t : State} (h : exec i s = .next t) (hcode : t.code ≠ .ok) :
    t = raiseError t.code s := by
  rcases exec_cases h with ⟨c, -, rfl, -⟩ | ⟨_, _, _, -, rfl⟩ | ⟨_, _, _, -, rfl⟩ | ⟨_, _, -, rfl⟩ |
    ⟨_, _, _, -, -, -, -, rfl⟩ | ⟨_, _, _, -, -, rfl⟩
  · rfl
  all_goals exact absurd rfl hcode

/-- Settles O33: an ILLEGAL word and a command that ends with an error are both one `raiseError`. -/
theorem errorsAreAllOrNothing : Obligations.ErrorsAreAllOrNothing := by
  intro c s t h hcode
  rcases runCommand_cases c s with ⟨hc, -⟩ | ⟨-, ⟨i, -, hc⟩ | ⟨-, hc⟩⟩
  · cases hc.symm.trans h
  · exact eq_raiseError_of_exec (hc.symm.trans h) hcode
  · cases hc.symm.trans h
    rfl

/-! ## The completion code -/

/-- The code a command ends with in a good state (R261, R266), decoding apart; `exec_code` ties it to `exec`. -/
def completionCode (s : State) : Instr → Code
  | .hash32 _ _ | .hash64 _ _ | .s64Init _ _ => .ok
  | .s64Append _ data =>
    if s.sv = false then .errNoStream
    else if (s.sTotal.getD 0#64).toNat + data.length > 2 ^ 64 - 1 then .errLength
    else .ok
  | .s64Final _ _ => if s.sv = false then .errNoStream else .ok

/-- On a live stream S64_APPEND completes, with ERR_LENGTH exactly past the limit (R265). -/
theorem exec_append_code {s : State} (hlive : StreamLive s) (hsv : s.sv = true) (x : U64) (data : List U8) :
    ∃ t, exec (.s64Append x data) s = .next t ∧
      t.code = if (s.sTotal.getD 0#64).toNat + data.length > 2 ^ 64 - 1 then .errLength else .ok := by
  obtain ⟨u, hu, -, -⟩ := hlive.absorb data
  obtain ⟨_, _, total, _, -, -, htotal, -⟩ := hlive
  rw [htotal, Option.getD_some]
  split_ifs with hpast
  · exact ⟨_, exec_append_past x hsv htotal hpast, rfl⟩
  · exact ⟨_, execS64Append_of x hsv htotal (not_lt.1 hpast) hu, rfl⟩

/-- No command faults in a good state, and this is the code it ends with. -/
theorem exec_code {s : State} (hs : Inv s) (i : Instr) : ∃ t, exec i s = .next t ∧ t.code = completionCode s i := by
  cases i with
  | hash32 seed data => exact ⟨_, exec_hash32 seed data s, rfl⟩
  | hash64 seed data => exact ⟨_, exec_hash64 seed data s, rfl⟩
  | s64Init seed data => exact ⟨_, exec_init seed data s, rfl⟩
  | s64Append x data =>
    cases hsv : s.sv with
    | false => exact ⟨_, exec_append_noStream hsv x data, (if_pos hsv).symm⟩
    | true =>
      obtain ⟨t, ht, hcode⟩ := exec_append_code (hs.live hsv) hsv x data
      exact ⟨t, ht, hcode.trans (if_neg (by simp [hsv])).symm⟩
  | s64Final x data =>
    cases hsv : s.sv with
    | false => exact ⟨_, exec_final_noStream hsv x data, (if_pos hsv).symm⟩
    | true =>
      obtain ⟨seed, v, total, held, hseed, hlive, -⟩ := (hs.live hsv).liveAt
      exact ⟨_, exec_final_of hsv hseed hlive x data, (if_neg (by simp [hsv])).symm⟩

/-- Settles O34: a word from 5 on is ILLEGAL, and below 5 it is its command's, with the code of `exec_code`. -/
theorem completionCodeByPriority : Obligations.CompletionCodeByPriority := by
  intro c s hs hfit
  rcases Nat.lt_or_ge c.cmd.toNat 5 with hlt | hge
  · obtain ⟨i, rfl⟩ := exists_encode_eq_of_lt hlt
    obtain ⟨t, ht, hcode⟩ := exec_code hs i
    refine ⟨t, (runCommand_encode hfit s).trans ht, hcode.trans ?_⟩
    cases i <;> simp [completionCode, encode, commandWord, Instr.data]
  · exact ⟨_, runCommand_of_ge hfit hge s, (if_pos (by omega)).symm⟩

/-! ## Faults and progress -/

/-- No transaction faults in a good state: it is refused, runs a command, or is ILLEGAL. -/
theorem runCommand_ne_fault {s : State} (hs : Inv s) (t : Transaction) (f : Fault) : runCommand t s ≠ .fault f := by
  rcases runCommand_cases t s with ⟨h, -⟩ | ⟨-, ⟨i, -, h⟩ | ⟨-, h⟩⟩
  · simp [h]
  · obtain ⟨u, hu⟩ := exec_completes hs i
    simp [h, hu]
  · simp [h]

/-- What a host action that faults in a good state is: a read of RESULT without a value (R276 (a), R33). -/
theorem hostAct_eq_fault {a : HostAction} {s : State} {f : Fault} (hs : Inv s) (h : hostAct a s = .fault f) :
    f = .noValue .result ∧ s.result = none ∧ (a = .readResult ∨ ∃ l, a = .readResultBytes l) := by
  cases a with
  | command t => exact absurd h (runCommand_ne_fault hs t f)
  | readStatus => cases h
  | readResult =>
    cases hv : s.result with
    | none =>
      cases (hostReadResult_of_none hv).symm.trans h
      exact ⟨rfl, rfl, .inl rfl⟩
    | some v => cases (hostReadResult_of_some hv).symm.trans h
  | readResultBytes layout =>
    cases hv : s.result with
    | none =>
      cases (hostReadResultBytes_of_none layout hv).symm.trans h
      exact ⟨rfl, rfl, .inr ⟨layout, rfl⟩⟩
    | some v => cases (hostReadResultBytes_of_some layout hv).symm.trans h
  | reset => cases h

/-- Settles O51: the step is the host's action on the list without it, and that list is no part of a good state. -/
theorem onlyTheHostReadOfResultFaults : Obligations.OnlyTheHostReadOfResultFaults := by
  intro s f hs h
  cases hport : s.port with
  | nil => cases (step_of_port_nil hport).symm.trans h
  | cons a rest =>
    have hact := (step_of_port hport).symm.trans h
    obtain ⟨hf, hnone, ha⟩ := hostAct_eq_fault ((recordWritten_setPort s rest).inv hs) hact
    refine ⟨hf, hnone, rest, ?_⟩
    rcases ha with rfl | ⟨l, rfl⟩
    · exact .inl rfl
    · exact .inr ⟨l, rfl⟩

/-- Settles O53: a step that is no next state faults or refuses, and by O51 and O52 only on an action that is not
allowed. -/
theorem allowedActionsProgress : Obligations.AllowedActionsProgress := by
  intro s hs hallowed
  cases hstep : step s with
  | next t => exact ⟨t, hstep⟩
  | fault f =>
    obtain ⟨-, hnone, rest, hport | ⟨l, hport⟩⟩ := onlyTheHostReadOfResultFaults s f hs hstep
    · exact absurd hnone (hallowed _ _ hport)
    · exact absurd hnone (hallowed _ _ hport)
  | refused r =>
    obtain ⟨-, c, rest, hport, hlong⟩ := (onlyOverlongDataIsRefused s r).1 hstep
    have hfit : c.WellFormed := hallowed _ _ hport
    exact absurd hlong (not_lt.2 hfit)

end Sys2Proof.Machine
end

section
/-! PROOFS. The statement of 70_reset_and_hazards.md: reset by the host (R290). -/

namespace Sys2Proof.Machine

/-- A reset keeps of the state only the host's record (log entry 10): here the actions still to come and the last read. -/
theorem hostReset_setPort (s : State) (rest : List HostAction) :
    hostReset (s.setPort rest) = { State.reset with port := rest, hostRead := s.hostRead } := rfl

/-- Settles O10: the step is the host's reset on the list without it. -/
theorem hostResetRestoresTheResetState : Obligations.HostResetRestoresTheResetState := by
  intro s rest hport
  calc step s = hostAct .reset (s.setPort rest) := step_of_port hport
    _ = .next (hostReset (s.setPort rest)) := rfl
    _ = .next { State.reset with port := rest, hostRead := s.hostRead } := by rw [hostReset_setPort]

end Sys2Proof.Machine
end
